-- ==== Sys2Proof/Word.lean ====
section
/-! DEFINITION. The machine's value types (00_scope.md R6, R11): every value is unsigned, of a stated width. -/

namespace Sys2Proof

/-- `u8`: a general register, a timer, a cell of memory. -/
abbrev Byte := BitVec 8

/-- `u16`: an instruction word, `PC`, `I`, an entry of the call stack. -/
abbrev Word := BitVec 16

/-- `u12`: the address operand `nnn` of an instruction. -/
abbrev Addr := BitVec 12

/-- The name of one of the 16 general registers `V0` to `VF` (10_state.md R21). -/
abbrev Reg := Fin 16

/-- `zext_16(nnn)` (00_scope.md R11, 30_encoding.md R74). -/
abbrev zext16 (a : Addr) : Word := a.setWidth 16

end Sys2Proof
end

