-- ==== Sys2Proof/Config.lean ====
section
/-! DEFINITION. The open parameters of the machine (00_scope.md R7) and the free random byte (R8).

The fixed parameters of R6 (4096 bytes of memory, 16 registers, 16 return addresses, 64 by 32 pixels, 16 keys, FONT at
0x050 to 0x09F, programs at 0x200, ROMs of at most 3584 bytes, 2 bytes an instruction) stand as numerals where they are used. -/

namespace Sys2Proof

/-- `SHIFT_MODE` (00_scope.md R7): which register 8XY6 and 8XYE shift. -/
inductive ShiftMode where
  /-- `V[x]`, the source's required behaviour. -/
  | modern
  /-- `V[y]`. PRESUMED (log entry 5): the spec gives it from general knowledge. -/
  | legacy
  deriving DecidableEq, Repr

/-- `JUMP_MODE` (00_scope.md R7): which register BNNN adds. -/
inductive JumpMode where
  /-- `V[0]`, the source's required behaviour. -/
  | v0
  /-- `V[x]`, `x` the top nibble of `nnn`. PRESUMED (log entry 6): the spec gives it from general knowledge. -/
  | vx
  deriving DecidableEq, Repr

/-- `FONT`: the 80 bytes that reset places at 0x050 to 0x09F, five a glyph (00_scope.md R7, 10_state.md R37). -/
abbrev Font := Vector Byte 80

/-- The parameters of R7, fixed for the life of the machine (10_state.md R33). -/
structure Config where
  font : Font
  shiftMode : ShiftMode
  jumpMode : JumpMode
  deriving DecidableEq, Repr

/-- The random byte `rnd` of the `k`-th draw (00_scope.md R8, 60_exceptions.md R224): a free value, under no law.
DESIGN CHOICE (log entry 1). -/
opaque Config.rnd (k : Nat) : Byte

end Sys2Proof
end

