-- ==== Sys2Proof/Syntax.lean ====
section
/-! DEFINITION. The six fields the decoder cuts out of a word, and the 34 instructions (30_encoding.md R71, R76). -/

namespace Sys2Proof

/-- The six overlapping fields of an instruction word (30_encoding.md R71), as bits. -/
structure Fields where
  /-- `w[15:12]`, the opcode family -/
  op : BitVec 4
  /-- `w[11:8]` -/
  x : BitVec 4
  /-- `w[7:4]` -/
  y : BitVec 4
  /-- `w[3:0]` -/
  n : BitVec 4
  /-- `w[7:0]` -/
  nn : Byte
  /-- `w[11:0]` -/
  nnn : Addr
  deriving DecidableEq, Repr

/-- The instructions: one constructor for each row of 30_encoding.md R76, in the table's order. Operands have exactly
the values their fields can hold (R74); bits that are not examined (R79) are no operands. -/
inductive Instr where
  /-- 00E0, `CLS` (R160) -/
  | cls
  /-- 00EE, `RET` (R100) -/
  | ret
  /-- 1NNN, `JP nnn` (R101) -/
  | jp (nnn : Addr)
  /-- 2NNN, `CALL nnn` (R102) -/
  | call (nnn : Addr)
  /-- 3XNN, `SE Vx, nn` (R104) -/
  | seImm (x : Reg) (nn : Byte)
  /-- 4XNN, `SNE Vx, nn` (R105) -/
  | sneImm (x : Reg) (nn : Byte)
  /-- 5XY0, `SE Vx, Vy` (R106) -/
  | seReg (x y : Reg)
  /-- 6XNN, `LD Vx, nn` (R122) -/
  | ldImm (x : Reg) (nn : Byte)
  /-- 7XNN, `ADD Vx, nn` (R123) -/
  | addImm (x : Reg) (nn : Byte)
  /-- 8XY0, `LD Vx, Vy` (R124) -/
  | ldReg (x y : Reg)
  /-- 8XY1, `OR Vx, Vy` (R125) -/
  | orReg (x y : Reg)
  /-- 8XY2, `AND Vx, Vy` (R126) -/
  | andReg (x y : Reg)
  /-- 8XY3, `XOR Vx, Vy` (R127) -/
  | xorReg (x y : Reg)
  /-- 8XY4, `ADD Vx, Vy` (R128) -/
  | addReg (x y : Reg)
  /-- 8XY5, `SUB Vx, Vy` (R129) -/
  | sub (x y : Reg)
  /-- 8XY6, `SHR Vx, Vy` (R130) -/
  | shr (x y : Reg)
  /-- 8XY7, `SUBN Vx, Vy` (R131) -/
  | subn (x y : Reg)
  /-- 8XYE, `SHL Vx, Vy` (R132) -/
  | shl (x y : Reg)
  /-- 9XY0, `SNE Vx, Vy` (R107) -/
  | sneReg (x y : Reg)
  /-- ANNN, `LD I, nnn` (R140) -/
  | ldI (nnn : Addr)
  /-- BNNN, `JP V0, nnn` (R103); in `JUMP_MODE = vx` the register is the top nibble of `nnn` -/
  | jpV0 (nnn : Addr)
  /-- CXNN, `RND Vx, nn` (R133) -/
  | rnd (x : Reg) (nn : Byte)
  /-- DXYN, `DRW Vx, Vy, n` (R161); `n` is a row count 0 to 15 -/
  | drw (x y : Reg) (n : Fin 16)
  /-- EX9E, `SKP Vx` (R170) -/
  | skp (x : Reg)
  /-- EXA1, `SKNP Vx` (R171) -/
  | sknp (x : Reg)
  /-- FX07, `LD Vx, DT` (R173) -/
  | ldVxDT (x : Reg)
  /-- FX0A, `LD Vx, K` (R172) -/
  | ldVxK (x : Reg)
  /-- FX15, `LD DT, Vx` (R174) -/
  | ldDTVx (x : Reg)
  /-- FX18, `LD ST, Vx` (R175) -/
  | ldSTVx (x : Reg)
  /-- FX1E, `ADD I, Vx` (R141) -/
  | addI (x : Reg)
  /-- FX29, `LD F, Vx` (R142) -/
  | ldF (x : Reg)
  /-- FX33, `LD B, Vx` (R143) -/
  | ldB (x : Reg)
  /-- FX55, `LD [I], Vx` (R145) -/
  | ldMemVx (x : Reg)
  /-- FX65, `LD Vx, [I]` (R146) -/
  | ldVxMem (x : Reg)
  deriving DecidableEq, Repr

/-- Why a list of bytes is no instruction. -/
inductive DecodeError where
  /-- fewer than two bytes are left (30_encoding.md R70) -/
  | tooShort
  /-- the word matches no row of R76 (30_encoding.md R78) -/
  | unknown (word : Word)
  deriving DecidableEq, Repr

end Sys2Proof
end

