-- ==== Sys2Proof/WellFormed.lean ====
section
/-! DEFINITION. Well-formedness checks. An `Instr` carries the bounds of its operands in their types (a register number
is a `Fin 16`, `nn` a byte, `nnn` 12 bits, `n` a `Fin 16`), so every `Instr` is well-formed; what can be ill-formed is a
tuple of fields, a word's don't-care bits and the length of a ROM. -/

namespace Sys2Proof

/-- The fields overlap (30_encoding.md R71): `nn = {y, n}`. -/
def Fields.byteConsistent (f : Fields) : Bool :=
  f.nn == f.y ++ f.n

/-- The fields overlap (30_encoding.md R71): `nnn = {x, y, n}`. -/
def Fields.addrConsistent (f : Fields) : Bool :=
  f.nnn == f.x ++ f.y ++ f.n

/-- A tuple of fields that some word has. -/
def Fields.wellFormed (f : Fields) : Bool :=
  f.byteConsistent && f.addrConsistent

/-- Every don't-care bit is zero (30_encoding.md R79): the `x` nibble in family 0, the `n` nibble in families 5 and 9.
An assembler emits only such words. -/
def Fields.canonical (f : Fields) : Bool :=
  (f.op != 0x0#4 || f.x == 0#4) && (f.op != 0x5#4 || f.n == 0#4) && (f.op != 0x9#4 || f.n == 0#4)

/-- A ROM that `LoadRom` accepts (00_scope.md R6 `ROM_MAX`, 60_exceptions.md R225). -/
def romFits (bytes : List Byte) : Bool :=
  bytes.length ≤ 3584

end Sys2Proof
end

