-- ==== Sys2Proof/Decode.lean ====
section
/-! DEFINITION. The decoder (30_encoding.md R70 to R72, R75, R78, R79), and after it the encoder and the opcode table of
R76, both written from the same table of the spec. -/

namespace Sys2Proof

/-- The fixed bit-slicing of a word into its six fields (30_encoding.md R71): pure and total (R72). -/
def fieldsOf (w : Word) : Fields where
  op := w.extractLsb' 12 4
  x := w.extractLsb' 8 4
  y := w.extractLsb' 4 4
  n := w.extractLsb' 0 4
  nn := w.extractLsb' 0 8
  nnn := w.extractLsb' 0 12

/-- `decode_dispatch` (30_encoding.md R75): by family and, where ambiguous, by `nn` or `n`; `none` is `Unknown` (R78).
Bits that are neither family nor discriminant nor operand are not examined (R79; log entry 13). -/
def dispatch (f : Fields) : Option Instr :=
  let x : Reg := f.x.toFin
  let y : Reg := f.y.toFin
  match f.op with
  | 0x0#4 =>
    match f.nn with
    | 0xE0#8 => some .cls
    | 0xEE#8 => some .ret
    | _ => none
  | 0x1#4 => some (.jp f.nnn)
  | 0x2#4 => some (.call f.nnn)
  | 0x3#4 => some (.seImm x f.nn)
  | 0x4#4 => some (.sneImm x f.nn)
  | 0x5#4 => some (.seReg x y)
  | 0x6#4 => some (.ldImm x f.nn)
  | 0x7#4 => some (.addImm x f.nn)
  | 0x8#4 =>
    match f.n with
    | 0x0#4 => some (.ldReg x y)
    | 0x1#4 => some (.orReg x y)
    | 0x2#4 => some (.andReg x y)
    | 0x3#4 => some (.xorReg x y)
    | 0x4#4 => some (.addReg x y)
    | 0x5#4 => some (.sub x y)
    | 0x6#4 => some (.shr x y)
    | 0x7#4 => some (.subn x y)
    | 0xE#4 => some (.shl x y)
    | _ => none
  | 0x9#4 => some (.sneReg x y)
  | 0xA#4 => some (.ldI f.nnn)
  | 0xB#4 => some (.jpV0 f.nnn)
  | 0xC#4 => some (.rnd x f.nn)
  | 0xD#4 => some (.drw x y f.n.toFin)
  | 0xE#4 =>
    match f.nn with
    | 0x9E#8 => some (.skp x)
    | 0xA1#8 => some (.sknp x)
    | _ => none
  | 0xF#4 =>
    match f.nn with
    | 0x07#8 => some (.ldVxDT x)
    | 0x0A#8 => some (.ldVxK x)
    | 0x15#8 => some (.ldDTVx x)
    | 0x18#8 => some (.ldSTVx x)
    | 0x1E#8 => some (.addI x)
    | 0x29#8 => some (.ldF x)
    | 0x33#8 => some (.ldB x)
    | 0x55#8 => some (.ldMemVx x)
    | 0x65#8 => some (.ldVxMem x)
    | _ => none
  | _ => none

/-- A word to its instruction, or to the name of the rejection (30_encoding.md R78). -/
def decodeWord (w : Word) : Except DecodeError Instr :=
  match dispatch (fieldsOf w) with
  | some i => .ok i
  | none => .error (.unknown w)

/-- Big-endian: the byte at the lower address is bits 15 to 8 (20_memory.md R51). -/
def wordOfBytes (hi lo : Byte) : Word :=
  hi ++ lo

/-- The byte at the lower address. -/
def highByte (w : Word) : Byte :=
  w.extractLsb' 8 8

/-- The byte at the higher address. -/
def lowByte (w : Word) : Byte :=
  w.extractLsb' 0 8

/-- The decoder on any bytes: the first instruction and the bytes after it (30_encoding.md R70). -/
def decode : List Byte → Except DecodeError (Instr × List Byte)
  | hi :: lo :: rest =>
    match decodeWord (wordOfBytes hi lo) with
    | .ok i => .ok (i, rest)
    | .error e => .error e
  | _ => .error .tooShort

/-- The host's view of the decoder: bit 0 of `w` is the least significant bit of the one 16-bit word. -/
def decodeTableWord (nbits w : Nat) : Option Instr :=
  let word : Word := BitVec.ofNat 16 (w % 2 ^ nbits)
  match decode [highByte word, lowByte word] with
  | .ok (i, _) => some i
  | .error _ => none

/-! The encoder. -/

/-- Format A of 30_encoding.md R73: `op nnn`. -/
def formatA (op : BitVec 4) (nnn : Addr) : Word :=
  op ++ nnn

/-- Formats XB, X and Z of 30_encoding.md R73: `op x nn`. -/
def formatXB (op : BitVec 4) (x : Reg) (nn : Byte) : Word :=
  op ++ BitVec.ofFin (w := 4) x ++ nn

/-- Formats XY and XYN of 30_encoding.md R73: `op x y n`. -/
def formatXYN (op : BitVec 4) (x y : Reg) (n : BitVec 4) : Word :=
  op ++ BitVec.ofFin (w := 4) x ++ BitVec.ofFin (w := 4) y ++ n

/-- The canonical encoding of an instruction (30_encoding.md R76): don't-care bits are zero. -/
def encode : Instr → Word
  | .cls => formatXB 0x0#4 0 0xE0#8
  | .ret => formatXB 0x0#4 0 0xEE#8
  | .jp nnn => formatA 0x1#4 nnn
  | .call nnn => formatA 0x2#4 nnn
  | .seImm x nn => formatXB 0x3#4 x nn
  | .sneImm x nn => formatXB 0x4#4 x nn
  | .seReg x y => formatXYN 0x5#4 x y 0x0#4
  | .ldImm x nn => formatXB 0x6#4 x nn
  | .addImm x nn => formatXB 0x7#4 x nn
  | .ldReg x y => formatXYN 0x8#4 x y 0x0#4
  | .orReg x y => formatXYN 0x8#4 x y 0x1#4
  | .andReg x y => formatXYN 0x8#4 x y 0x2#4
  | .xorReg x y => formatXYN 0x8#4 x y 0x3#4
  | .addReg x y => formatXYN 0x8#4 x y 0x4#4
  | .sub x y => formatXYN 0x8#4 x y 0x5#4
  | .shr x y => formatXYN 0x8#4 x y 0x6#4
  | .subn x y => formatXYN 0x8#4 x y 0x7#4
  | .shl x y => formatXYN 0x8#4 x y 0xE#4
  | .sneReg x y => formatXYN 0x9#4 x y 0x0#4
  | .ldI nnn => formatA 0xA#4 nnn
  | .jpV0 nnn => formatA 0xB#4 nnn
  | .rnd x nn => formatXB 0xC#4 x nn
  | .drw x y n => formatXYN 0xD#4 x y (BitVec.ofFin (w := 4) n)
  | .skp x => formatXB 0xE#4 x 0x9E#8
  | .sknp x => formatXB 0xE#4 x 0xA1#8
  | .ldVxDT x => formatXB 0xF#4 x 0x07#8
  | .ldVxK x => formatXB 0xF#4 x 0x0A#8
  | .ldDTVx x => formatXB 0xF#4 x 0x15#8
  | .ldSTVx x => formatXB 0xF#4 x 0x18#8
  | .addI x => formatXB 0xF#4 x 0x1E#8
  | .ldF x => formatXB 0xF#4 x 0x29#8
  | .ldB x => formatXB 0xF#4 x 0x33#8
  | .ldMemVx x => formatXB 0xF#4 x 0x55#8
  | .ldVxMem x => formatXB 0xF#4 x 0x65#8

/-- The bytes of an instruction, lowest address first. -/
def encodeBytes (i : Instr) : List Byte :=
  [highByte (encode i), lowByte (encode i)]

/-- The columns mask and match of the opcode table (30_encoding.md R76), in its order. -/
def opcodeTable : List (Word × Word) :=
  [(0xF0FF, 0x00E0), (0xF0FF, 0x00EE), (0xF000, 0x1000), (0xF000, 0x2000), (0xF000, 0x3000), (0xF000, 0x4000)] ++
  [(0xF000, 0x5000), (0xF000, 0x6000), (0xF000, 0x7000), (0xF00F, 0x8000), (0xF00F, 0x8001), (0xF00F, 0x8002)] ++
  [(0xF00F, 0x8003), (0xF00F, 0x8004), (0xF00F, 0x8005), (0xF00F, 0x8006), (0xF00F, 0x8007), (0xF00F, 0x800E)] ++
  [(0xF000, 0x9000), (0xF000, 0xA000), (0xF000, 0xB000), (0xF000, 0xC000), (0xF000, 0xD000), (0xF0FF, 0xE09E)] ++
  [(0xF0FF, 0xE0A1), (0xF0FF, 0xF007), (0xF0FF, 0xF00A), (0xF0FF, 0xF015), (0xF0FF, 0xF018), (0xF0FF, 0xF01E)] ++
  [(0xF0FF, 0xF029), (0xF0FF, 0xF033), (0xF0FF, 0xF055), (0xF0FF, 0xF065)]

/-- A word is the instruction of a row when `w AND mask = match` (30_encoding.md R76). -/
def matchesRow (w : Word) (row : Word × Word) : Bool :=
  w &&& row.1 == row.2

end Sys2Proof
end

