-- ==== Sys2Proof/Machine/State.lean ====
section
/-! DEFINITION. The machine's state (10_state.md R20), its errors (60_exceptions.md R202) and its state after reset
(10_state.md R36). -/

namespace Sys2Proof.Machine

/-- The typed errors of 60_exceptions.md R202. Each ends the run (R211), which is safe: the hardware would let the host
go on, and the model then claims nothing (log entry 8). -/
inductive Fault where
  /-- Raised by `step` when the fetched word is no instruction (R203); safe. -/
  | unknownInstruction (word : Word)
  /-- Raised by the fetch and by DXYN, FX33, FX55, FX65 when an address of the access exceeds 4095 (R204); `address` is
  the lowest such address. Safe, but for a claim that names the payload (log entry 9). -/
  | memoryOutOfBounds (address : Nat)
  /-- Raised by 2NNN with 16 return addresses on the stack (R205); safe. -/
  | stackOverflow
  /-- Raised by 00EE with none (R206); safe. -/
  | stackUnderflow
  /-- Raised by `LoadRom` on more than 3584 bytes (R207), never by `step`; safe. -/
  | romTooLarge
  deriving DecidableEq, Repr

/-- The codes of 60_exceptions.md R202; `Ok` is 0. -/
def Fault.code : Fault → Nat
  | .unknownInstruction _ => 1
  | .memoryOutOfBounds _ => 2
  | .stackOverflow => 3
  | .stackUnderflow => 4
  | .romTooLarge => 5

/-- Why an instruction has no meaning. -/
inductive Refusal where
  /-- Raised by `exec` for an instruction the model gives no meaning, under the table's mnemonic; safe. No arm of `exec`
  uses it: all 34 instructions are modelled. -/
  | notModelled (mnemonic : String)
  deriving DecidableEq, Repr

/-- The display buffer (10_state.md R31), "64x32 boolean grid, row-major": row `y` from the top, in it column `x`.
The pixel the spec calls `disp[y * 64 + x]` is column `x` of row `y` (log entry 22). -/
abbrev Display := Vector (Vector Bool 64) 32

/-- The whole state of the machine (10_state.md R20), with two fields of the model's own at the end. -/
structure State where
  /-- `V[0..15]` (R21); `V[15]` is VF, the flag (R22) -/
  v : Vector Byte 16
  /-- `I` (R23) -/
  i : Word
  /-- `PC` (R24) -/
  pc : Word
  /-- `stack[0..15]` (R26) -/
  stack : Vector Word 16
  /-- `SP`, the number of return addresses on the stack (R27) -/
  sp : Fin 17
  /-- `DT` (R28) -/
  dt : Byte
  /-- `ST` (R29) -/
  st : Byte
  /-- `key[0..15]`, true when pressed (R30) -/
  key : Vector Bool 16
  /-- `disp` (R31) -/
  disp : Display
  /-- `mem` (R32): the cells that differ from what reset put there, addresses rising (log entry 20) -/
  mem : List Host.Cell
  /-- the model's own: the parameters of 00_scope.md R7, which no operation changes (log entry 3) -/
  config : Config
  /-- the model's own: how many random bytes CXNN has consumed (log entry 2) -/
  draws : Nat
  deriving DecidableEq, Repr

/-- The outcome of an instruction or a step. -/
abbrev Result := Host.Outcome State Fault Refusal

/-- The state after `Reset` with the parameters `cfg` (10_state.md R36, 70_reset_and_hazards.md R240). -/
def State.resetWith (cfg : Config) : State where
  v := Vector.replicate 16 0
  i := 0x0000
  pc := 0x0200
  stack := Vector.replicate 16 0
  sp := 0
  dt := 0
  st := 0
  key := Vector.replicate 16 false
  disp := Vector.replicate 32 (Vector.replicate 64 false)
  mem := []
  config := cfg
  draws := 0

/-- The state after `Reset`, parameters at their defaults. -/
def State.reset : State :=
  State.resetWith Config.default

end Sys2Proof.Machine
end

