-- ==== Sys2Proof/Machine/Memory.lean ====
section
/-! DEFINITION. Memory as a list of cells in canonical form (10_state.md R32, 20_memory.md R50): addresses strictly
rising, all at most 4095, and no cell equal to what an unlisted address reads as. -/

namespace Sys2Proof.Machine

/-- What an address that is not listed reads as: the contents after reset, `FONT` at 0x050 to 0x09F and zero elsewhere
(10_state.md R36; log entry 20). -/
def Memory.unlisted (font : Font) (a : Nat) : Byte :=
  if h : 0x050 ≤ a ∧ a ≤ 0x09F then font.get ⟨a - 0x050, by omega⟩ else 0

/-- One byte of memory. -/
def Memory.read (font : Font) : List Host.Cell → Nat → Byte
  | [], a => Memory.unlisted font a
  | (b, v) :: m, a => if b = a then v else Memory.read font m a

/-- A cell in front of cells at higher addresses, left out when it reads the same unlisted. -/
def Memory.consCell (font : Font) (a : Nat) (v : Byte) (m : List Host.Cell) : List Host.Cell :=
  if v = Memory.unlisted font a then m else (a, v) :: m

/-- Stores one byte. -/
def Memory.write (font : Font) : List Host.Cell → Nat → Byte → List Host.Cell
  | [], a, v => Memory.consCell font a v []
  | (b, w) :: m, a, v =>
    if a < b then Memory.consCell font a v ((b, w) :: m)
    else if a = b then Memory.consCell font a v m
    else (b, w) :: Memory.write font m a v

/-- The canonical form from address `lo` on. -/
def Memory.wfFrom (font : Font) : Nat → List Host.Cell → Bool
  | _, [] => true
  | lo, (a, v) :: m => decide (lo ≤ a) && decide (a ≤ 4095) && (v != Memory.unlisted font a) && Memory.wfFrom font (a + 1) m

/-- The canonical form. -/
def Memory.wf (font : Font) (m : List Host.Cell) : Bool :=
  Memory.wfFrom font 0 m

end Sys2Proof.Machine
end

