-- ==== Sys2Proof/Machine/Flags.lean ====
section
/-! DEFINITION. Every flag computation (10_state.md R22, 41_register_alu.md R120) and the arithmetic beside it. Sums and
differences are computed on natural numbers and narrowed at the end (00_scope.md R11). -/

namespace Sys2Proof.Machine

/-- A flag write stores the full byte 0x00 or 0x01 (10_state.md R22). -/
def flagByte (b : Bool) : Byte :=
  if b then 1 else 0

/-- `(a + b) mod 256` (41_register_alu.md R120). -/
def addByte (a b : Byte) : Byte :=
  BitVec.ofNat 8 ((a.toNat + b.toNat) % 256)

/-- Carry of 8XY4: the true sum exceeds 255 (R128). -/
def carry (a b : Byte) : Bool :=
  decide (a.toNat + b.toNat > 255)

/-- `(a - b + 256) mod 256` (41_register_alu.md R120). -/
def subByte (a b : Byte) : Byte :=
  BitVec.ofNat 8 ((a.toNat + 256 - b.toNat) % 256)

/-- NOT borrow of 8XY5 and 8XY7: the minuend is at least the subtrahend (R129, R131). -/
def notBorrow (a b : Byte) : Bool :=
  decide (a.toNat ≥ b.toNat)

/-- `s >> 1` (R130). -/
def shiftRight (s : Byte) : Byte :=
  BitVec.ofNat 8 (s.toNat / 2)

/-- The bit 8XY6 shifts out, `s[0]` (R130). -/
def rightBit (s : Byte) : Bool :=
  s.getLsbD 0

/-- `(s << 1) mod 256` (R132). -/
def shiftLeft (s : Byte) : Byte :=
  BitVec.ofNat 8 (s.toNat * 2 % 256)

/-- The bit 8XYE shifts out, `s[7]` (R132; 90_conflicts.md C5). -/
def leftBit (s : Byte) : Bool :=
  s.getLsbD 7

end Sys2Proof.Machine
end

