-- ==== Sys2Proof/Machine/Ops.lean ====
section
/-! DEFINITION. The named operations over registers, program counter, stack and memory that the meanings share. -/

namespace Sys2Proof.Machine

/-! Registers (10_state.md R21, R23, R24, R28, R29). No register is hardwired. -/

/-- `V[r]` -/
def State.reg (s : State) (r : Reg) : Byte :=
  s.v.get r

/-- `V[r] <- b` -/
def State.setReg (s : State) (r : Reg) (b : Byte) : State :=
  { s with v := s.v.set r.val b r.isLt }

/-- `VF <- 1 if b else 0` (10_state.md R22) -/
def State.setFlag (s : State) (b : Bool) : State :=
  s.setReg 15 (flagByte b)

/-- `I <- a` -/
def State.setI (s : State) (a : Word) : State :=
  { s with i := a }

/-- `PC <- a` -/
def State.setPc (s : State) (a : Word) : State :=
  { s with pc := a }

/-- `DT <- b` -/
def State.setDt (s : State) (b : Byte) : State :=
  { s with dt := b }

/-- `ST <- b` -/
def State.setSt (s : State) (b : Byte) : State :=
  { s with st := b }

/-- `key[k] <- b` (10_state.md R30) -/
def State.setKey (s : State) (k : Fin 16) (b : Bool) : State :=
  { s with key := s.key.set k.val b k.isLt }

/-- `disp <- d` (10_state.md R31) -/
def State.setDisp (s : State) (d : Display) : State :=
  { s with disp := d }

/-- A random byte is consumed (00_scope.md R8; log entry 2). -/
def State.drawn (s : State) : State :=
  { s with draws := s.draws + 1 }

/-- Result first, flag second (41_register_alu.md R121; log entry 14): with `x = 15` VF ends as the flag. -/
def State.setResultFlag (s : State) (x : Reg) (result : Byte) (flag : Bool) : State :=
  (s.setReg x result).setFlag flag

/-- `PC <- PC + 2` when the condition holds (40_control_flow.md R108). -/
def State.skipIf (s : State) (c : Bool) : State :=
  if c then s.setPc (s.pc + 2) else s

/-! The call stack (10_state.md R26, R27; log entry 15). -/

/-- `stack[SP] <- a; SP <- SP + 1`, or `StackOverflow` at `SP = 16` (40_control_flow.md R102). -/
def State.push (s : State) (a : Word) : Except Fault State :=
  if h : s.sp.val < 16 then
    .ok { s with stack := s.stack.set s.sp.val a h, sp := ⟨s.sp.val + 1, by omega⟩ }
  else .error .stackOverflow

/-- `SP <- SP - 1; PC <- stack[SP]`, or `StackUnderflow` at `SP = 0` (40_control_flow.md R100). The slot keeps its value. -/
def State.popPc (s : State) : Except Fault State :=
  if h : 0 < s.sp.val then
    .ok { s with pc := s.stack.get ⟨s.sp.val - 1, by omega⟩, sp := ⟨s.sp.val - 1, by omega⟩ }
  else .error .stackUnderflow

/-! Memory (20_memory.md R50 to R58). -/

/-- `mem[a]` -/
def State.byte (s : State) (a : Nat) : Byte :=
  Memory.read s.config.font s.mem a

/-- `mem[a] <- b` -/
def State.setByte (s : State) (a : Nat) (b : Byte) : State :=
  { s with mem := Memory.write s.config.font s.mem a b }

/-- `mem[a], mem[a + 1], ...`, `n` bytes, lowest address first. -/
def State.bytes (s : State) : Nat → Nat → List Byte
  | _, 0 => []
  | a, n + 1 => s.byte a :: s.bytes (a + 1) n

/-- Stores bytes in ascending address order (20_memory.md R52). -/
def State.setBytes (s : State) : Nat → List Byte → State
  | _, [] => s
  | a, b :: bs => (s.setByte a b).setBytes (a + 1) bs

/-- The state's memory is in canonical form. -/
abbrev State.memWf (s : State) : Prop :=
  Memory.wf s.config.font s.mem = true

/-- The bounds check of an indexed access of `len` bytes at `a` (20_memory.md R57): addresses are natural numbers and do
not wrap; nothing is checked when there is no access. The payload is the lowest address out of range (log entry 9). -/
def boundsCheck (a len : Nat) : Except Fault Unit :=
  if len ≥ 1 ∧ a + len - 1 > 4095 then .error (.memoryOutOfBounds (max a 4096)) else .ok ()

/-- `MemRead(a, n)` (00_scope.md R12): the whole range is checked first (20_memory.md R58; log entry 10). -/
def State.memRead (s : State) (a n : Nat) : Except Fault (List Byte) :=
  match boundsCheck a n with
  | .ok _ => .ok (s.bytes a n)
  | .error f => .error f

/-- `MemWrite(a, n, bytes)` (00_scope.md R12): the whole range is checked first (20_memory.md R58; log entry 10). -/
def State.memWrite (s : State) (a : Nat) (bs : List Byte) : Except Fault State :=
  match boundsCheck a bs.length with
  | .ok _ => .ok (s.setBytes a bs)
  | .error f => .error f

/-- The word at `a`, big-endian (20_memory.md R51). -/
def State.wordAt (s : State) (a : Nat) : Word :=
  wordOfBytes (s.byte a) (s.byte (a + 1))

/-- Phase 1 of a `Step` (60_exceptions.md R200, 20_memory.md R56): the word at `PC`, and the state with `PC` advanced by
2. Any `PC` up to 4094 will do, odd ones too (20_memory.md R53; log entry 28). -/
def State.fetch (s : State) : Except Fault (Word × State) :=
  if s.pc.toNat ≥ 4095 then .error (.memoryOutOfBounds (max s.pc.toNat 4096))
  else .ok (s.wordAt s.pc.toNat, s.setPc (s.pc + 2))

/-! Errors (60_exceptions.md R208, R211). There is no trap entry and no return from one: an error goes to the host. -/

/-- The error of a word that is no instruction (60_exceptions.md R203). -/
def unknownWord (w : Word) : Fault :=
  .unknownInstruction w

/-- The state an error of a `Step` at `s` leaves (60_exceptions.md R208; log entry 8): after a failure in fetch nothing
has changed; after any other, `PC` is past the failing instruction and nothing else has changed. -/
def State.afterError (s : State) : State :=
  if s.pc.toNat ≥ 4095 then s else s.setPc (s.pc + 2)

/-- An operation's answer as an outcome. -/
def toResult : Except Fault State → Result
  | .ok s => .next s
  | .error f => .fault f

/-- The word `w` where the next fetch reads it: at `PC`, or, when no fetch at `PC` could succeed, at 0x200 with `PC`
there (log entry 19). -/
def State.placeWord (s : State) (w : Word) : State :=
  let t := if s.pc.toNat ≥ 4095 then s.setPc 0x0200 else s
  t.setBytes t.pc.toNat [highByte w, lowByte w]

end Sys2Proof.Machine
end

