-- ==== Sys2Proof/Machine/Operands.lean ====
section
/-! DEFINITION. Every operand form: the operands that are computed from registers and parameters (30_encoding.md R74). -/

namespace Sys2Proof.Machine

/-- The operand of 8XY6 and 8XYE (41_register_alu.md R130, R132): `V[x]`, or `V[y]` in legacy mode (log entry 5). -/
def State.shiftOperand (s : State) (x y : Reg) : Byte :=
  match s.config.shiftMode with
  | .modern => s.reg x
  | .legacy => s.reg y

/-- The top nibble of `nnn`, as the register it names (40_control_flow.md R103). -/
def topNibble (nnn : Addr) : Reg :=
  ⟨nnn.toNat / 256 % 16, by omega⟩

/-- The offset register of BNNN (40_control_flow.md R103): V0, or `V[x]` in mode vx (log entry 6). -/
def State.jumpRegister (s : State) (nnn : Addr) : Reg :=
  match s.config.jumpMode with
  | .v0 => 0
  | .vx => topNibble nnn

/-- The target of BNNN (40_control_flow.md R103): at most 0x10FE, not reduced modulo 4096. -/
def State.jumpTarget (s : State) (nnn : Addr) : Word :=
  BitVec.ofNat 16 (nnn.toNat + (s.reg (s.jumpRegister nnn)).toNat)

/-- The sum of FX1E (42_index_memory.md R141): modulo 65536 (log entry 16). -/
def State.indexSum (s : State) (x : Reg) : Word :=
  BitVec.ofNat 16 ((s.i.toNat + (s.reg x).toNat) % 65536)

/-- The address of FX29 (42_index_memory.md R142): `0x050 + 5 * V[x]`, all eight bits of `V[x]` (log entry 12). -/
def glyphAddress (b : Byte) : Word :=
  BitVec.ofNat 16 (0x050 + 5 * b.toNat)

/-- The three bytes FX33 stores (42_index_memory.md R143): hundreds, tens, ones. -/
def decimalDigits (b : Byte) : List Byte :=
  [BitVec.ofNat 8 (b.toNat / 100), BitVec.ofNat 8 (b.toNat / 10 % 10), BitVec.ofNat 8 (b.toNat % 10)]

/-- `[V[0], V[1], ..., V[x]]` (42_index_memory.md R145). -/
def State.regsUpTo (s : State) (x : Reg) : List Byte :=
  s.v.toList.take (x.val + 1)

/-- `V[k] <- b[0]`, `V[k + 1] <- b[1]`, ... (42_index_memory.md R146). -/
def State.setRegs (s : State) : Nat → List Byte → State
  | _, [] => s
  | k, b :: bs => (s.setReg (Fin.ofNat 16 k) b).setRegs (k + 1) bs

/-- The key EX9E and EXA1 test: `V[x][3:0]` (44_keypad_timers.md R176; log entry 11). -/
def keyIndex (b : Byte) : Fin 16 :=
  ⟨b.toNat % 16, by omega⟩

/-- Whether that key is pressed. -/
def State.keyDown (s : State) (x : Reg) : Bool :=
  s.key.get (keyIndex (s.reg x))

/-- `min { k | key[k] }`, or none when no key is pressed (44_keypad_timers.md R172). -/
def State.lowestKey (s : State) : Option Nat :=
  (List.range 16).find? fun k => s.key.get (Fin.ofNat 16 k)

/-- The start column of DXYN (43_display.md R161): `V[x] mod 64`. -/
def startColumn (b : Byte) : Nat :=
  b.toNat % 64

/-- The start row of DXYN (43_display.md R161): `V[y] mod 32`. -/
def startRow (b : Byte) : Nat :=
  b.toNat % 32

/-- Column `c` of a sprite row is bit `7 - c` (43_display.md R161). -/
def spriteBit (row : Byte) (c : Nat) : Bool :=
  row.getLsbD (7 - c)

end Sys2Proof.Machine
end

