-- ==== Sys2Proof/Machine/ControlFlow.lean ====
section
/-! DEFINITION. Control flow (40_control_flow.md). Each meaning runs after the fetch: `PC` is past the instruction. -/

namespace Sys2Proof.Machine

/-- 00EE (R100) -/
def execRet (s : State) : Result :=
  toResult s.popPc

/-- 1NNN (R101) -/
def execJp (nnn : Addr) (s : State) : Result :=
  .next (s.setPc (zext16 nnn))

/-- 2NNN (R102): the pushed `PC` is the address after the call. -/
def execCall (nnn : Addr) (s : State) : Result :=
  match s.push s.pc with
  | .ok t => .next (t.setPc (zext16 nnn))
  | .error f => .fault f

/-- BNNN (R103) -/
def execJpV0 (nnn : Addr) (s : State) : Result :=
  .next (s.setPc (s.jumpTarget nnn))

/-- 3XNN (R104) -/
def execSeImm (x : Reg) (nn : Byte) (s : State) : Result :=
  .next (s.skipIf (s.reg x == nn))

/-- 4XNN (R105) -/
def execSneImm (x : Reg) (nn : Byte) (s : State) : Result :=
  .next (s.skipIf (s.reg x != nn))

/-- 5XY0 (R106) -/
def execSeReg (x y : Reg) (s : State) : Result :=
  .next (s.skipIf (s.reg x == s.reg y))

/-- 9XY0 (R107) -/
def execSneReg (x y : Reg) (s : State) : Result :=
  .next (s.skipIf (s.reg x != s.reg y))

end Sys2Proof.Machine
end

