-- ==== Sys2Proof/Machine/DisplayOps.lean ====
section
/-! DEFINITION. Display instructions (43_display.md). -/

namespace Sys2Proof.Machine

/-- The display with every pixel clear. -/
def clearDisplay : Display :=
  Vector.replicate 32 (Vector.replicate 64 false)

/-- The pixel in column `px`, row `py`. -/
def pixelAt (d : Display) (px : Fin 64) (py : Fin 32) : Bool :=
  (d.get py).get px

/-- The pixel in column `px`, row `py` set to `b`: the internal helper `write_pixel` (60_exceptions.md R223). -/
def writePixel (d : Display) (px : Fin 64) (py : Fin 32) (b : Bool) : Display :=
  d.set py.val ((d.get py).set px.val b px.isLt) py.isLt

/-- 00E0 (R160) -/
def execCls (s : State) : Result :=
  .next (s.setDisp clearDisplay)

/-- One sprite bit `b` at column `px`, row `py` (R161): XOR into the pixel, noting a set pixel turned off; past the
right or bottom edge it is dropped. The second component is `hit`. -/
def plot (px py : Nat) (b : Bool) (acc : Display × Bool) : Display × Bool :=
  if h : px ≤ 63 ∧ py ≤ 31 then
    let old := pixelAt acc.1 ⟨px, by omega⟩ ⟨py, by omega⟩
    (writePixel acc.1 ⟨px, by omega⟩ ⟨py, by omega⟩ (xor old b), acc.2 || (b && old))
  else acc

/-- One sprite row at row `py`, its eight columns from column `x0` on (R161). -/
def drawRow (x0 py : Nat) (row : Byte) (acc : Display × Bool) : Display × Bool :=
  (List.range 8).foldl (fun acc c => plot (x0 + c) py (spriteBit row c) acc) acc

/-- The sprite's rows from row `py` down (R161). -/
def drawRows (x0 : Nat) : Nat → List Byte → Display × Bool → Display × Bool
  | _, [], acc => acc
  | py, row :: rows, acc => drawRows x0 (py + 1) rows (drawRow x0 py row acc)

/-- DXYN (R161): the start coordinates wrap, the sprite is clipped, all `n` bytes are checked before any effect, VF is
written last. -/
def execDrw (x y : Reg) (n : Fin 16) (s : State) : Result :=
  match s.memRead s.i.toNat n.val with
  | .ok rows =>
    let drawn := drawRows (startColumn (s.reg x)) (startRow (s.reg y)) rows (s.disp, false)
    .next ((s.setDisp drawn.1).setFlag drawn.2)
  | .error f => .fault f

end Sys2Proof.Machine
end

