-- ==== Sys2Proof/Machine/IndexMemory.lean ====
section
/-! DEFINITION. Index register and memory instructions (42_index_memory.md). None but ANNN, FX1E and FX29 writes `I`
(R144; log entry 27). -/

namespace Sys2Proof.Machine

/-- ANNN (R140) -/
def execLdI (nnn : Addr) (s : State) : Result :=
  .next (s.setI (zext16 nnn))

/-- FX1E (R141): no flag; a sum above 0x0FFF faults only when used as an address. -/
def execAddI (x : Reg) (s : State) : Result :=
  .next (s.setI (s.indexSum x))

/-- FX29 (R142) -/
def execLdF (x : Reg) (s : State) : Result :=
  .next (s.setI (glyphAddress (s.reg x)))

/-- FX33 (R143) -/
def execLdB (x : Reg) (s : State) : Result :=
  toResult (s.memWrite s.i.toNat (decimalDigits (s.reg x)))

/-- FX55 (R145) -/
def execLdMemVx (x : Reg) (s : State) : Result :=
  toResult (s.memWrite s.i.toNat (s.regsUpTo x))

/-- FX65 (R146) -/
def execLdVxMem (x : Reg) (s : State) : Result :=
  match s.memRead s.i.toNat (x.val + 1) with
  | .ok bs => .next (s.setRegs 0 bs)
  | .error f => .fault f

end Sys2Proof.Machine
end

