-- ==== Sys2Proof/Machine/KeypadTimers.lean ====
section
/-! DEFINITION. Keypad and timer instructions (44_keypad_timers.md). -/

namespace Sys2Proof.Machine

/-- EX9E (R170) -/
def execSkp (x : Reg) (s : State) : Result :=
  .next (s.skipIf (s.keyDown x))

/-- EXA1 (R171) -/
def execSknp (x : Reg) (s : State) : Result :=
  .next (s.skipIf (!s.keyDown x))

/-- FX0A (R172): with no key pressed `PC` is rewound, so that the next `Step` runs it again; else the lowest key. -/
def execLdVxK (x : Reg) (s : State) : Result :=
  match s.lowestKey with
  | none => .next (s.setPc (s.pc - 2))
  | some k => .next (s.setReg x (BitVec.ofNat 8 k))

/-- FX07 (R173) -/
def execLdVxDT (x : Reg) (s : State) : Result :=
  .next (s.setReg x s.dt)

/-- FX15 (R174) -/
def execLdDTVx (x : Reg) (s : State) : Result :=
  .next (s.setDt (s.reg x))

/-- FX18 (R175) -/
def execLdSTVx (x : Reg) (s : State) : Result :=
  .next (s.setSt (s.reg x))

end Sys2Proof.Machine
end

