-- ==== Sys2Proof/Machine/RegisterAlu.lean ====
section
/-! DEFINITION. Register and arithmetic instructions (41_register_alu.md). Sources are read before any write (R121). -/

namespace Sys2Proof.Machine

/-- 6XNN (R122) -/
def execLdImm (x : Reg) (nn : Byte) (s : State) : Result :=
  .next (s.setReg x nn)

/-- 7XNN (R123): no flag. -/
def execAddImm (x : Reg) (nn : Byte) (s : State) : Result :=
  .next (s.setReg x (addByte (s.reg x) nn))

/-- 8XY0 (R124) -/
def execLdReg (x y : Reg) (s : State) : Result :=
  .next (s.setReg x (s.reg y))

/-- 8XY1 (R125): no flag (log entry 27). -/
def execOrReg (x y : Reg) (s : State) : Result :=
  .next (s.setReg x (s.reg x ||| s.reg y))

/-- 8XY2 (R126): no flag (log entry 27). -/
def execAndReg (x y : Reg) (s : State) : Result :=
  .next (s.setReg x (s.reg x &&& s.reg y))

/-- 8XY3 (R127): no flag (log entry 27). -/
def execXorReg (x y : Reg) (s : State) : Result :=
  .next (s.setReg x (s.reg x ^^^ s.reg y))

/-- 8XY4 (R128) -/
def execAddReg (x y : Reg) (s : State) : Result :=
  .next (s.setResultFlag x (addByte (s.reg x) (s.reg y)) (carry (s.reg x) (s.reg y)))

/-- 8XY5 (R129) -/
def execSub (x y : Reg) (s : State) : Result :=
  .next (s.setResultFlag x (subByte (s.reg x) (s.reg y)) (notBorrow (s.reg x) (s.reg y)))

/-- 8XY6 (R130) -/
def execShr (x y : Reg) (s : State) : Result :=
  .next (s.setResultFlag x (shiftRight (s.shiftOperand x y)) (rightBit (s.shiftOperand x y)))

/-- 8XY7 (R131) -/
def execSubn (x y : Reg) (s : State) : Result :=
  .next (s.setResultFlag x (subByte (s.reg y) (s.reg x)) (notBorrow (s.reg y) (s.reg x)))

/-- 8XYE (R132) -/
def execShl (x y : Reg) (s : State) : Result :=
  .next (s.setResultFlag x (shiftLeft (s.shiftOperand x y)) (leftBit (s.shiftOperand x y)))

/-- CXNN with the random byte `r` (R133). -/
def rndWith (r : Byte) (x : Reg) (nn : Byte) (s : State) : State :=
  s.setReg x (r &&& nn)

/-- CXNN (R133): the byte is the free value of this draw (log entry 1). -/
def execRnd (x : Reg) (nn : Byte) (s : State) : Result :=
  .next (rndWith (Config.rnd s.draws) x nn s).drawn

end Sys2Proof.Machine
end

