-- ==== Sys2Proof/Machine/Step.lean ====
section
/-! DEFINITION. The `Step` operation (60_exceptions.md R200): fetch, decode, execute. -/

namespace Sys2Proof.Machine

/-- One `Step`. An error is a fault (R211; log entry 8); the checks come in the order of R209. -/
def step (s : State) : Host.Outcome State Fault Refusal :=
  match s.fetch with
  | .error f => .fault f
  | .ok (w, t) =>
    match decodeWord w with
    | .ok i => exec i t
    | .error _ => .fault (unknownWord w)

/-- `s` with the one-word instruction `w` stored where the next `step` fetches it (log entries 18 and 19). -/
def State.withFetchWord (s : State) (nbits w : Nat) : State :=
  s.placeWord (BitVec.ofNat 16 (w % 2 ^ nbits))

end Sys2Proof.Machine
end

