-- ==== Sys2Proof/Machine/HostPort.lean ====
section
/-! DEFINITION. The operations of the host other than `Step` (60_exceptions.md R215 to R226, 70_reset_and_hazards.md R240),
and the command port they go through (R226). No two operations overlap (00_scope.md R9), so a run is a list of commands. -/

namespace Sys2Proof.Machine

/-- Down by one, with a floor at zero (R215). -/
def countDown (b : Byte) : Byte :=
  if b = 0 then 0 else b - 1

/-- `Tick` (R215) -/
def tick (s : State) : State :=
  (s.setDt (countDown s.dt)).setSt (countDown s.st)

/-- `KeyPress(k)` (R219) -/
def keyPress (k : Fin 16) (s : State) : State :=
  s.setKey k true

/-- `KeyRelease(k)` (R220) -/
def keyRelease (k : Fin 16) (s : State) : State :=
  s.setKey k false

/-- `PixelIndex(x, y) = y * 64 + x` (R221) -/
def pixelIndex (x : Fin 64) (y : Fin 32) : Fin 2048 :=
  ⟨y.val * 64 + x.val, by omega⟩

/-- `ReadPixel(p)` (R222): `disp[p]` -/
def readPixel (s : State) (p : Fin 2048) : Bool :=
  pixelAt s.disp ⟨p.val % 64, by omega⟩ ⟨p.val / 64, by omega⟩

/-- The output `st_value` (R217) -/
def stValue (s : State) : Byte :=
  s.st

/-- The output `tone`: `ST > 0` (R217) -/
def tone (s : State) : Bool :=
  decide (s.st.toNat > 0)

/-- `LoadRom(bytes)` (R225): byte `j` to `mem[0x200 + j]`, or `RomTooLarge` with nothing written. -/
def loadRom (bytes : List Byte) (s : State) : Result :=
  if romFits bytes then .next (s.setBytes 0x200 bytes) else .fault .romTooLarge

/-- `Reset` (70_reset_and_hazards.md R240): nothing survives but the parameters, and the count of draws, so that no
random byte comes twice (log entry 2). -/
def hostReset (s : State) : State :=
  { State.resetWith s.config with draws := s.draws }

/-- The commands of the port (60_exceptions.md R226). Out-of-range keys and pixels cannot be said (R220, R222; log entry
23). The random byte of `step` is the free value of the next draw (log entry 1). -/
inductive Command where
  | reset
  | loadRom (bytes : List Byte)
  | step
  | tick
  | keyPress (k : Fin 16)
  | keyRelease (k : Fin 16)
  | readPixel (p : Fin 2048)
  deriving DecidableEq, Repr

/-- What a command answers (60_exceptions.md R226). -/
inductive Response where
  /-- `reset`, `tick`, `key_press`, `key_release` answer nothing -/
  | done
  /-- `load_rom` and `step`: `Ok` (none) or an error with its payload (R202) -/
  | code (e : Option Fault)
  /-- `read_pixel` -/
  | pixel (b : Bool)
  /-- an instruction without a meaning; no instruction of this model answers so -/
  | noMeaning (r : Refusal)
  deriving DecidableEq, Repr

/-- One command, with the state it leaves also after an error (60_exceptions.md R208; log entry 8): the host that
continues finds this state (R211). -/
def perform (c : Command) (s : State) : State × Response :=
  match c with
  | .reset => (hostReset s, .done)
  | .loadRom bytes =>
    match loadRom bytes s with
    | .next t => (t, .code none)
    | .fault f => (s, .code (some f))
    | .refused r => (s, .noMeaning r)
  | .step =>
    match step s with
    | .next t => (t, .code none)
    | .fault f => (s.afterError, .code (some f))
    | .refused r => (s, .noMeaning r)
  | .tick => (tick s, .done)
  | .keyPress k => (keyPress k s, .done)
  | .keyRelease k => (keyRelease k s, .done)
  | .readPixel p => (s, .pixel (readPixel s p))

/-- A schedule of commands, one at a time (00_scope.md R9, 60_exceptions.md R230 H1, H5). -/
def performAll : List Command → State → State × List Response
  | [], s => (s, [])
  | c :: cs, s =>
    let (t, r) := perform c s
    let (u, rs) := performAll cs t
    (u, r :: rs)

end Sys2Proof.Machine
end

