-- ==== Sys2Proof/Safety.lean ====
section
/-! DEFINITION. What a safe run is, the end of a run, and the host's launch order. -/

namespace Sys2Proof

open Machine

/-- A safe step: no error (60_exceptions.md R211: the first error ends the run). -/
def SafeStep (s : State) : Prop :=
  ∃ t, step s = .next t

/-- `n` steps without an error. -/
def SafeFor (n : Nat) (s : State) : Prop :=
  ∃ t, core.run n s = .next t

/-- The response of a command that raised no error. -/
def responseOk : Response → Bool
  | .code (some _) => false
  | .noMeaning _ => false
  | _ => true

/-- A schedule of host commands without an error. -/
def SafeSchedule (cs : List Command) (s : State) : Prop :=
  ∀ r ∈ (performAll cs s).2, responseOk r = true

/-- The end-of-run convention (70_reset_and_hazards.md R246): `PC` stands at a jump to itself. -/
def ended (s : State) : Bool :=
  decide (s.pc.toNat ≤ 0xFFE) && s.wordAt s.pc.toNat == 0x1#4 ++ s.pc.extractLsb' 0 12

/-- What may follow within the run once it was loaded or has stepped: no further `LoadRom` (60_exceptions.md R230 H6,
H10), and no `Reset`, which would start a new run (70_reset_and_hazards.md R241). -/
def scheduleRunning (cs : List Command) : Bool :=
  cs.all fun c => match c with
    | .loadRom _ => false
    | .reset => false
    | _ => true

/-- After `Reset`: at most one `LoadRom`, before the first `Step` (60_exceptions.md R230 H6). -/
def scheduleBooting : List Command → Bool
  | [] => true
  | .loadRom _ :: cs => scheduleRunning cs
  | .step :: cs => scheduleRunning cs
  | .reset :: _ => false
  | _ :: cs => scheduleBooting cs

/-- One run as the host's duties allow it (60_exceptions.md R230 H6, H10; log entry 25). -/
def launchOrder : List Command → Bool
  | .reset :: cs => scheduleBooting cs
  | _ => false

end Sys2Proof
end

