-- ==== Sys2Proof/Certificates/Slice0/Obligations.lean ====
section
/-! DEFINITION. The statements about the machine, for the provers. Each docstring names the rules of spec/ it formalises;
where a clause rests on a decision that the spec marks as its own, or on a choice of the model, the docstring says so. -/

namespace Sys2Proof.Claims

open Machine

/-! The vocabulary of the statements. -/

/-- The parts of the state besides the general registers. `stack` is `SP` with the entries; `draws` is the model's own. -/
inductive Part where
  | pc | index | stack | delay | sound | keys | display | memory | draws
  deriving DecidableEq, Repr

/-- The frame: everything is as before but the registers `regs` and the parts `parts`. Memory is compared byte by byte,
the display pixel by pixel. -/
def Unchanged (regs : List Reg) (parts : List Part) (s t : State) : Prop :=
  (∀ r, r ∉ regs → t.reg r = s.reg r) ∧
  (Part.pc ∉ parts → t.pc = s.pc) ∧
  (Part.index ∉ parts → t.i = s.i) ∧
  (Part.stack ∉ parts → t.sp = s.sp ∧ ∀ j, t.stack.get j = s.stack.get j) ∧
  (Part.delay ∉ parts → t.dt = s.dt) ∧
  (Part.sound ∉ parts → t.st = s.st) ∧
  (Part.keys ∉ parts → ∀ k, t.key.get k = s.key.get k) ∧
  (Part.display ∉ parts → ∀ px py, pixelAt t.disp px py = pixelAt s.disp px py) ∧
  (Part.memory ∉ parts → ∀ a, t.byte a = s.byte a) ∧
  (Part.draws ∉ parts → t.draws = s.draws) ∧
  t.config = s.config

/-- Every byte outside the `len` bytes from `a` on is as before. -/
def OnlyBytes (a len : Nat) (s t : State) : Prop :=
  ∀ q, ¬(a ≤ q ∧ q < a + len) → t.byte q = s.byte q

/-- `w[11:8]`, by division (00_scope.md R10) -/
def wordX (w : Word) : Reg := Fin.ofNat 16 (w.toNat / 256)

/-- `w[7:4]` -/
def wordY (w : Word) : Reg := Fin.ofNat 16 (w.toNat / 16)

/-- `w[3:0]` -/
def wordN (w : Word) : Fin 16 := Fin.ofNat 16 w.toNat

/-- `w[7:0]` -/
def wordNN (w : Word) : Byte := BitVec.ofNat 8 w.toNat

/-- `w[11:0]` -/
def wordNNN (w : Word) : Addr := BitVec.ofNat 12 w.toNat

/-- A row of 30_encoding.md R76: a word is this instruction if and only if `w AND mask = match`. -/
def Encoded (mask matched : Word) (i : Word → Instr) : Prop :=
  ∀ w : Word, (w &&& mask = matched → decodeWord w = .ok (i w)) ∧ (decodeWord w = .ok (i w) → w &&& mask = matched)

/-- The flag as a byte. -/
def FlagIs (b : Byte) (p : Prop) : Prop :=
  (p → b = 1) ∧ (¬p → b = 0)

/-- Whether a draw of `n` rows by DXYN in state `s` brings a sprite bit 1 to column `px`, row `py` (43_display.md R161):
row `r`, column `c` of the sprite is bit `7 - c` of the byte at `I + r`; nothing reaches past the right or bottom edge. -/
def SpriteBit (s : State) (x y : Reg) (n : Nat) (px : Fin 64) (py : Fin 32) : Prop :=
  ∃ r c : Nat, r < n ∧ c < 8 ∧ py.val = (s.reg y).toNat % 32 + r ∧ px.val = (s.reg x).toNat % 64 + c ∧
    (s.byte (s.i.toNat + r)).getLsbD (7 - c) = true

/-- The bound of 10_state.md R25 on `PC`, with what it needs of the live entries of the call stack. -/
def PcBounded (s : State) : Prop :=
  s.pc.toNat ≤ 0x10FE ∧
  ∀ j : Fin 16, j.val < s.sp.val → 2 ≤ (s.stack.get j).toNat ∧ (s.stack.get j).toNat ≤ 4096

/-- An outcome with a change applied to its next state. -/
def mapNext (f : State → State) : Result → Result
  | .next t => .next (f t)
  | .fault e => .fault e
  | .refused r => .refused r

/-- From `s`, the commands `cs` raise no error, hold no `Reset`, and never take the call stack below depth `d`. -/
def DepthKept (d : Nat) : List Command → State → Prop
  | [], _ => True
  | c :: cs, s =>
    c ≠ .reset ∧ responseOk (perform c s).2 = true ∧ d ≤ (perform c s).1.sp.val ∧ DepthKept d cs (perform c s).1

/-- `n` ticks. -/
def ticks : Nat → State → State
  | 0, s => s
  | n + 1, s => ticks n (tick s)

/-- The instructions that write VF as a flag (10_state.md R22). -/
def WritesFlag : Instr → Prop
  | .addReg _ _ | .sub _ _ | .shr _ _ | .subn _ _ | .shl _ _ | .drw _ _ _ => True
  | _ => False

/-- The instructions that name `V[r]` as an ordinary destination (10_state.md R22, 42_index_memory.md R146). -/
def Loads (r : Reg) : Instr → Prop
  | .ldImm x _ | .addImm x _ | .ldReg x _ | .orReg x _ | .andReg x _ | .xorReg x _ => x = r
  | .addReg x _ | .sub x _ | .shr x _ | .subn x _ | .shl x _ => x = r
  | .rnd x _ | .ldVxDT x | .ldVxK x => x = r
  | .ldVxMem x => r.val ≤ x.val
  | _ => False

end Sys2Proof.Claims

open Sys2Proof Sys2Proof.Machine Sys2Proof.Claims

/-! ## Decoding -/

/-- Words written out from 30_encoding.md R76 and the examples of 95_test_vectors.md (S1, S8, F8, F11, F14, F15, F19, A3, A22, P1
to P4): at least one for each of the sixteen values of the top nibble, and an unknown one (E2). -/
def Obligations.SampleWordsDecode : Prop :=
  decodeWord 0x6A0C = .ok (.ldImm 0xA 0x0C) ∧ decodeWord 0xD123 = .ok (.drw 1 2 3) ∧
  decodeWord 0x00E0 = .ok .cls ∧ decodeWord 0x00EE = .ok .ret ∧ decodeWord 0x1204 = .ok (.jp 0x204) ∧
  decodeWord 0x8104 = .ok (.addReg 1 0) ∧ decodeWord 0xA300 = .ok (.ldI 0x300) ∧ decodeWord 0xF265 = .ok (.ldVxMem 2) ∧
  decodeWord 0x2300 = .ok (.call 0x300) ∧ decodeWord 0x3A0C = .ok (.seImm 0xA 0x0C) ∧
  decodeWord 0x4A0C = .ok (.sneImm 0xA 0x0C) ∧ decodeWord 0x5AB0 = .ok (.seReg 0xA 0xB) ∧
  decodeWord 0x70FF = .ok (.addImm 0 0xFF) ∧ decodeWord 0x9AB0 = .ok (.sneReg 0xA 0xB) ∧
  decodeWord 0xB200 = .ok (.jpV0 0x200) ∧ decodeWord 0xC10F = .ok (.rnd 1 0x0F) ∧
  decodeWord 0xE19E = .ok (.skp 1) ∧ decodeWord 0xF20A = .ok (.ldVxK 2) ∧ decodeWord 0x0123 = .error (.unknown 0x0123)

/-- 30_encoding.md R71: the six fields, as bits by position, with `nn = {y, n}` and `nnn = {x, y, n}`. -/
def Obligations.FieldsAreBitSlices : Prop :=
  ∀ w : Word, (fieldsOf w).op.toNat = w.toNat / 4096 ∧ (fieldsOf w).x.toNat = w.toNat / 256 % 16 ∧
    (fieldsOf w).y.toNat = w.toNat / 16 % 16 ∧ (fieldsOf w).n.toNat = w.toNat % 16 ∧
    (fieldsOf w).nn.toNat = w.toNat % 256 ∧ (fieldsOf w).nnn.toNat = w.toNat % 4096 ∧ (fieldsOf w).wellFormed = true

/-- 30_encoding.md R71, R74, R76: decoding the encoding of any instruction, with every operand at every value, gives it
back, from the word and from its two bytes with any bytes after them. -/
def Obligations.DecodeOfEncode : Prop :=
  ∀ (i : Instr) (rest : List Byte), decodeWord (encode i) = .ok i ∧ decode (encodeBytes i ++ rest) = .ok (i, rest)

/-- The other direction: a word that decodes is the encoding of its instruction with, at most, the don't-care bits of
30_encoding.md R79 cleared (the x nibble in family 0, the n nibble in families 5 and 9; decision D11, log entry 13). -/
def Obligations.EncodeOfDecode : Prop :=
  ∀ (w : Word) (i : Instr), decodeWord w = .ok i →
    encode i = w &&& (if w >>> 12 = 0x0 then 0xF0FF else if w >>> 12 = 0x5 ∨ w >>> 12 = 0x9 then 0xFFF0 else 0xFFFF)

/-- 30_encoding.md R76, R78: a word is an instruction if and only if it matches a row of the table, no word matches two
rows, and any other word is rejected under its own name. -/
def Obligations.OpcodeTableDecidesDecoding : Prop :=
  (∀ w : Word, (∃ i, decodeWord w = .ok i) ↔ ∃ row ∈ opcodeTable, w &&& row.1 = row.2) ∧
  (∀ w : Word, (opcodeTable.filter (matchesRow w)).length ≤ 1) ∧
  (∀ w : Word, (∀ row ∈ opcodeTable, w &&& row.1 ≠ row.2) → decodeWord w = .error (.unknown w))

/-! ## The step cycle -/

/-- 60_exceptions.md R200 with 20_memory.md R51: when the two bytes at `PC`, the lower address first and high, decode to
`i`, the step is `i` executed with `PC` advanced by 2. That an odd `PC` is legal is decision D21 (20_memory.md R53, log
entry 28). -/
def Obligations.StepRunsDecodedInstruction : Prop :=
  ∀ (s : State) (i : Instr), s.pc.toNat ≤ 4094 →
    decodeWord (BitVec.ofNat 16 ((s.byte s.pc.toNat).toNat * 256 + (s.byte (s.pc.toNat + 1)).toNat)) = .ok i →
    step s = exec i { s with pc := s.pc + 2 }

/-- 20_memory.md R56, 60_exceptions.md R203, R209: a step at `PC >= 4095` fails in fetch, whatever memory holds; else a
word that is no instruction fails with the raw word. The payload of the fetch error is decision D6 (log entry 9). -/
def Obligations.StepErrorsBeforeExecution : Prop :=
  ∀ s : State,
    (4095 ≤ s.pc.toNat → step s = .fault (.memoryOutOfBounds (max s.pc.toNat 4096))) ∧
    (s.pc.toNat ≤ 4094 → ∀ w : Word, w = BitVec.ofNat 16 ((s.byte s.pc.toNat).toNat * 256 + (s.byte (s.pc.toNat + 1)).toNat) →
      (∀ row ∈ opcodeTable, w &&& row.1 ≠ row.2) → step s = .fault (.unknownInstruction w))

/-- 60_exceptions.md R202, R204 to R206, R209: exactly when an instruction ends in an error, and in which; and no
instruction is without a meaning. The payload of the memory errors is decision D6 (log entry 9); that all rows of a sprite
are checked is decision D7 (log entry 10). -/
def Obligations.ExecFaultsExactly : Prop :=
  ∀ (i : Instr) (s : State),
    (∀ r, exec i s ≠ .refused r) ∧
    ∀ f, exec i s = .fault f ↔
      ((i = .ret ∧ s.sp.val = 0 ∧ f = .stackUnderflow) ∨
       ((∃ nnn, i = .call nnn) ∧ s.sp.val = 16 ∧ f = .stackOverflow) ∨
       (f = .memoryOutOfBounds (max s.i.toNat 4096) ∧
        ((∃ x y n, i = .drw x y n ∧ 1 ≤ n.val ∧ s.i.toNat + n.val - 1 > 4095) ∨
         ((∃ x, i = .ldB x) ∧ s.i.toNat + 2 > 4095) ∨
         (∃ x, (i = .ldMemVx x ∨ i = .ldVxMem x) ∧ s.i.toNat + x.val > 4095))))

/-- 60_exceptions.md R208 (decision D5, log entry 8): what a `step` command leaves when it reports an error: after a
failure in fetch nothing has changed, after any other only `PC` has, by 2. -/
def Obligations.StateAfterErrorOfStep : Prop :=
  ∀ (s : State) (f : Fault), step s = .fault f →
    (perform .step s).2 = .code (some f) ∧ Unchanged [] [.pc] s (perform .step s).1 ∧
    (4095 ≤ s.pc.toNat → (perform .step s).1.pc = s.pc) ∧ (s.pc.toNat ≤ 4094 → (perform .step s).1.pc.toNat = s.pc.toNat + 2)

/-! ## Control flow -/

/-- 40_control_flow.md R100, 60_exceptions.md R206. The layout of the stack is decision D15 (log entry 15), the ignored `x`
of the encoding decision D11 (log entry 13). -/
def Obligations.ReturnPopsProgramCounter : Prop :=
  Encoded 0xF0FF 0x00EE (fun _ => .ret) ∧
  ∀ s : State, (s.sp.val = 0 → exec .ret s = .fault .stackUnderflow) ∧
    ∀ n : Fin 16, s.sp.val = n.val + 1 → ∃ t, exec .ret s = .next t ∧ t.sp.val = n.val ∧ t.pc = s.stack.get n ∧
      (∀ j, t.stack.get j = s.stack.get j) ∧ Unchanged [] [.pc, .stack] s t

/-- 40_control_flow.md R101. -/
def Obligations.JumpSetsProgramCounter : Prop :=
  Encoded 0xF000 0x1000 (fun w => .jp (wordNNN w)) ∧
  ∀ (nnn : Addr) (s : State), ∃ t, exec (.jp nnn) s = .next t ∧ t.pc.toNat = nnn.toNat ∧ Unchanged [] [.pc] s t

/-- 40_control_flow.md R102, 60_exceptions.md R205: `s.pc` is the address after the call. The layout of the stack is decision
D15 (log entry 15). -/
def Obligations.CallPushesReturnAddress : Prop :=
  Encoded 0xF000 0x2000 (fun w => .call (wordNNN w)) ∧
  ∀ (nnn : Addr) (s : State), (s.sp.val = 16 → exec (.call nnn) s = .fault .stackOverflow) ∧
    ∀ n : Fin 16, s.sp.val = n.val → ∃ t, exec (.call nnn) s = .next t ∧ t.sp.val = n.val + 1 ∧ t.stack.get n = s.pc ∧
      (∀ j, j ≠ n → t.stack.get j = s.stack.get j) ∧ t.pc.toNat = nnn.toNat ∧ Unchanged [] [.pc, .stack] s t

/-- 40_control_flow.md R103, both values of `JUMP_MODE`; the `vx` variant is the spec's from general knowledge (decision
D12, log entry 6). The sum is not reduced modulo 4096. -/
def Obligations.JumpWithOffset : Prop :=
  Encoded 0xF000 0xB000 (fun w => .jpV0 (wordNNN w)) ∧
  ∀ (nnn : Addr) (s : State), ∃ t, exec (.jpV0 nnn) s = .next t ∧ Unchanged [] [.pc] s t ∧
    (s.config.jumpMode = .v0 → t.pc.toNat = nnn.toNat + (s.reg 0).toNat) ∧
    (s.config.jumpMode = .vx → t.pc.toNat = nnn.toNat + (s.reg (Fin.ofNat 16 (nnn.toNat / 256))).toNat)

/-- 40_control_flow.md R104, R105, R108. -/
def Obligations.SkipsOnImmediate : Prop :=
  Encoded 0xF000 0x3000 (fun w => .seImm (wordX w) (wordNN w)) ∧
  Encoded 0xF000 0x4000 (fun w => .sneImm (wordX w) (wordNN w)) ∧
  ∀ (x : Reg) (nn : Byte) (s : State),
    (∃ t, exec (.seImm x nn) s = .next t ∧ t.pc = (if s.reg x = nn then s.pc + 2 else s.pc) ∧ Unchanged [] [.pc] s t) ∧
    (∃ t, exec (.sneImm x nn) s = .next t ∧ t.pc = (if s.reg x = nn then s.pc else s.pc + 2) ∧ Unchanged [] [.pc] s t)

/-- 40_control_flow.md R106, R107; that their encodings ignore `n` is decision D11 (log entry 13). -/
def Obligations.SkipsOnRegisters : Prop :=
  Encoded 0xF000 0x5000 (fun w => .seReg (wordX w) (wordY w)) ∧
  Encoded 0xF000 0x9000 (fun w => .sneReg (wordX w) (wordY w)) ∧
  ∀ (x y : Reg) (s : State),
    (∃ t, exec (.seReg x y) s = .next t ∧ t.pc = (if s.reg x = s.reg y then s.pc + 2 else s.pc) ∧ Unchanged [] [.pc] s t) ∧
    (∃ t, exec (.sneReg x y) s = .next t ∧ t.pc = (if s.reg x = s.reg y then s.pc else s.pc + 2) ∧ Unchanged [] [.pc] s t)

/-- 40_control_flow.md R109 (marked by the spec as derived from R100 to R103): after a call, let the host issue any
commands without a reset and without an error (steps, ticks, key events) that never take the stack below the call's depth
and end at that depth; a return then continues after the call, with the depth of before it. `s.pc` is the address after
the call. The layout of the stack is decision D15 (log entry 15). -/
def Obligations.CallThenReturnComesBack : Prop :=
  ∀ (nnn : Addr) (s t : State) (cs : List Command), exec (.call nnn) s = .next t →
    DepthKept t.sp.val cs t → (performAll cs t).1.sp = t.sp →
    ∃ u, exec .ret (performAll cs t).1 = .next u ∧ u.pc = s.pc ∧ u.sp = s.sp

/-! ## Registers and arithmetic -/

/-- 41_register_alu.md R122. -/
def Obligations.LoadByte : Prop :=
  Encoded 0xF000 0x6000 (fun w => .ldImm (wordX w) (wordNN w)) ∧
  ∀ (x : Reg) (nn : Byte) (s : State), ∃ t, exec (.ldImm x nn) s = .next t ∧ t.reg x = nn ∧ Unchanged [x] [] s t

/-- 41_register_alu.md R123: no flag; VF is a destination like any other. -/
def Obligations.AddByteWithoutFlag : Prop :=
  Encoded 0xF000 0x7000 (fun w => .addImm (wordX w) (wordNN w)) ∧
  ∀ (x : Reg) (nn : Byte) (s : State), ∃ t, exec (.addImm x nn) s = .next t ∧
    (t.reg x).toNat = ((s.reg x).toNat + nn.toNat) % 256 ∧ Unchanged [x] [] s t

/-- 41_register_alu.md R124. -/
def Obligations.CopyRegister : Prop :=
  Encoded 0xF00F 0x8000 (fun w => .ldReg (wordX w) (wordY w)) ∧
  ∀ (x y : Reg) (s : State), ∃ t, exec (.ldReg x y) s = .next t ∧ t.reg x = s.reg y ∧ Unchanged [x] [] s t

/-- 41_register_alu.md R125 to R127, bit by bit. That they leave VF alone is decision D23 (log entry 27). -/
def Obligations.LogicOperations : Prop :=
  Encoded 0xF00F 0x8001 (fun w => .orReg (wordX w) (wordY w)) ∧
  Encoded 0xF00F 0x8002 (fun w => .andReg (wordX w) (wordY w)) ∧
  Encoded 0xF00F 0x8003 (fun w => .xorReg (wordX w) (wordY w)) ∧
  ∀ (x y : Reg) (s : State),
    (∃ t, exec (.orReg x y) s = .next t ∧ Unchanged [x] [] s t ∧
      ∀ k, (t.reg x).getLsbD k = ((s.reg x).getLsbD k || (s.reg y).getLsbD k)) ∧
    (∃ t, exec (.andReg x y) s = .next t ∧ Unchanged [x] [] s t ∧
      ∀ k, (t.reg x).getLsbD k = ((s.reg x).getLsbD k && (s.reg y).getLsbD k)) ∧
    (∃ t, exec (.xorReg x y) s = .next t ∧ Unchanged [x] [] s t ∧
      ∀ k, (t.reg x).getLsbD k = xor ((s.reg x).getLsbD k) ((s.reg y).getLsbD k))

/-- 41_register_alu.md R128, also with `y = 15` (the old VF is added); that VF ends as the carry when `x = 15` is decision
D13 (log entry 14). -/
def Obligations.AddWithCarryOut : Prop :=
  Encoded 0xF00F 0x8004 (fun w => .addReg (wordX w) (wordY w)) ∧
  ∀ (x y : Reg) (s : State), ∃ t, exec (.addReg x y) s = .next t ∧
    (x ≠ 15 → (t.reg x).toNat = ((s.reg x).toNat + (s.reg y).toNat) % 256) ∧
    FlagIs (t.reg 15) ((s.reg x).toNat + (s.reg y).toNat > 255) ∧ Unchanged [x, 15] [] s t

/-- 41_register_alu.md R129, R131; that VF ends as the flag when `x = 15` is decision D13 (log entry 14). -/
def Obligations.SubtractBothWays : Prop :=
  Encoded 0xF00F 0x8005 (fun w => .sub (wordX w) (wordY w)) ∧
  Encoded 0xF00F 0x8007 (fun w => .subn (wordX w) (wordY w)) ∧
  ∀ (x y : Reg) (s : State),
    (∃ t, exec (.sub x y) s = .next t ∧
      (x ≠ 15 → (t.reg x).toNat = ((s.reg x).toNat + 256 - (s.reg y).toNat) % 256) ∧
      FlagIs (t.reg 15) ((s.reg x).toNat ≥ (s.reg y).toNat) ∧ Unchanged [x, 15] [] s t) ∧
    (∃ t, exec (.subn x y) s = .next t ∧
      (x ≠ 15 → (t.reg x).toNat = ((s.reg y).toNat + 256 - (s.reg x).toNat) % 256) ∧
      FlagIs (t.reg 15) ((s.reg y).toNat ≥ (s.reg x).toNat) ∧ Unchanged [x, 15] [] s t)

/-- 41_register_alu.md R130, R132, both values of `SHIFT_MODE`, bit by bit; the `legacy` variant is the spec's from
general knowledge (decision D12, log entry 5). That VF ends as the flag when `x = 15` is decision D13 (log entry 14). -/
def Obligations.ShiftsByOne : Prop :=
  Encoded 0xF00F 0x8006 (fun w => .shr (wordX w) (wordY w)) ∧
  Encoded 0xF00F 0x800E (fun w => .shl (wordX w) (wordY w)) ∧
  ∀ (x y : Reg) (s : State) (v : Byte),
    (s.config.shiftMode = .modern → v = s.reg x) → (s.config.shiftMode = .legacy → v = s.reg y) →
    (∃ t, exec (.shr x y) s = .next t ∧ FlagIs (t.reg 15) (v.getLsbD 0 = true) ∧ Unchanged [x, 15] [] s t ∧
      (x ≠ 15 → ∀ k, (t.reg x).getLsbD k = v.getLsbD (k + 1))) ∧
    (∃ t, exec (.shl x y) s = .next t ∧ FlagIs (t.reg 15) (v.getLsbD 7 = true) ∧ Unchanged [x, 15] [] s t ∧
      (x ≠ 15 → (t.reg x).getLsbD 0 = false ∧ ∀ k, k < 7 → (t.reg x).getLsbD (k + 1) = v.getLsbD k))

/-- 41_register_alu.md R133: the result is some byte ANDed with `nn`, so nothing outside `nn` is set, and `nn = 0` gives
0. Which byte it is, `Config.rnd` of the count of draws, is the model's form of the free input `rnd` (decision D14, log
entries 1 and 2). -/
def Obligations.RandomByteIsMasked : Prop :=
  Encoded 0xF000 0xC000 (fun w => .rnd (wordX w) (wordNN w)) ∧
  ∀ (x : Reg) (nn : Byte) (s : State), ∃ t, exec (.rnd x nn) s = .next t ∧ t.reg x = Config.rnd s.draws &&& nn ∧
    t.reg x &&& ~~~nn = 0 ∧ (nn = 0 → t.reg x = 0) ∧ t.draws = s.draws + 1 ∧ Unchanged [x] [.draws] s t

/-- 10_state.md R22, 41_register_alu.md R121: the six flag-writing instructions leave 0 or 1 in VF, also as destination
(decision D13, log entry 14); no other instruction changes a register it does not name as its destination (decision D23,
log entry 27). -/
def Obligations.FlagAndRegisterWriters : Prop :=
  ∀ (i : Instr) (s t : State), exec i s = .next t →
    (WritesFlag i → t.reg 15 = 0 ∨ t.reg 15 = 1) ∧
    ∀ r, ¬Loads r i → ¬(WritesFlag i ∧ r = 15) → t.reg r = s.reg r

/-! ## Index register and memory -/

/-- 42_index_memory.md R140. -/
def Obligations.LoadIndex : Prop :=
  Encoded 0xF000 0xA000 (fun w => .ldI (wordNNN w)) ∧
  ∀ (nnn : Addr) (s : State), ∃ t, exec (.ldI nnn) s = .next t ∧ t.i.toNat = nnn.toNat ∧ Unchanged [] [.index] s t

/-- 42_index_memory.md R141; the 16-bit wrap and the untouched VF are decisions D8 and D23 (log entries 16 and 27). -/
def Obligations.AddToIndex : Prop :=
  Encoded 0xF0FF 0xF01E (fun w => .addI (wordX w)) ∧
  ∀ (x : Reg) (s : State), ∃ t, exec (.addI x) s = .next t ∧ t.i.toNat = (s.i.toNat + (s.reg x).toNat) % 65536 ∧
    Unchanged [] [.index] s t

/-- 42_index_memory.md R142; that all eight bits of `V[x]` count is decision D10 (log entry 12). -/
def Obligations.PointIndexAtGlyph : Prop :=
  Encoded 0xF0FF 0xF029 (fun w => .ldF (wordX w)) ∧
  ∀ (x : Reg) (s : State), ∃ t, exec (.ldF x) s = .next t ∧ t.i.toNat = 0x050 + 5 * (s.reg x).toNat ∧
    Unchanged [] [.index] s t

/-- 42_index_memory.md R143. The payload of the error is decision D6 (log entry 9), that `I` is kept decision D23 (log
entry 27). -/
def Obligations.StoreDecimalDigits : Prop :=
  Encoded 0xF0FF 0xF033 (fun w => .ldB (wordX w)) ∧
  ∀ (x : Reg) (s : State),
    (s.i.toNat + 2 > 4095 → exec (.ldB x) s = .fault (.memoryOutOfBounds (max s.i.toNat 4096))) ∧
    (s.i.toNat + 2 ≤ 4095 → ∃ t, exec (.ldB x) s = .next t ∧ Unchanged [] [.memory] s t ∧ OnlyBytes s.i.toNat 3 s t ∧
      (s.memWf → (t.byte s.i.toNat).toNat = (s.reg x).toNat / 100 ∧
        (t.byte (s.i.toNat + 1)).toNat = (s.reg x).toNat / 10 % 10 ∧ (t.byte (s.i.toNat + 2)).toNat = (s.reg x).toNat % 10))

/-- 42_index_memory.md R143, consequence: the three stored bytes are digits and stand for `V[x]`. -/
def Obligations.StoredDigitsStandForValue : Prop :=
  ∀ (x : Reg) (s t : State), s.memWf → exec (.ldB x) s = .next t →
    (t.byte s.i.toNat).toNat ≤ 2 ∧ (t.byte (s.i.toNat + 1)).toNat ≤ 9 ∧ (t.byte (s.i.toNat + 2)).toNat ≤ 9 ∧
    100 * (t.byte s.i.toNat).toNat + 10 * (t.byte (s.i.toNat + 1)).toNat + (t.byte (s.i.toNat + 2)).toNat = (s.reg x).toNat

/-- 42_index_memory.md R145. The payload of the error is decision D6 (log entry 9), that `I` is kept decision D23 (log
entry 27). -/
def Obligations.StoreRegisters : Prop :=
  Encoded 0xF0FF 0xF055 (fun w => .ldMemVx (wordX w)) ∧
  ∀ (x : Reg) (s : State),
    (s.i.toNat + x.val > 4095 → exec (.ldMemVx x) s = .fault (.memoryOutOfBounds (max s.i.toNat 4096))) ∧
    (s.i.toNat + x.val ≤ 4095 → ∃ t, exec (.ldMemVx x) s = .next t ∧ Unchanged [] [.memory] s t ∧
      OnlyBytes s.i.toNat (x.val + 1) s t ∧ (s.memWf → ∀ k : Reg, k ≤ x → t.byte (s.i.toNat + k.val) = s.reg k))

/-- 42_index_memory.md R146: registers above `x` keep their values. The payload of the error is decision D6 (log entry 9),
that `I` is kept decision D23 (log entry 27). -/
def Obligations.LoadRegisters : Prop :=
  Encoded 0xF0FF 0xF065 (fun w => .ldVxMem (wordX w)) ∧
  ∀ (x : Reg) (s : State),
    (s.i.toNat + x.val > 4095 → exec (.ldVxMem x) s = .fault (.memoryOutOfBounds (max s.i.toNat 4096))) ∧
    (s.i.toNat + x.val ≤ 4095 → ∃ t, exec (.ldVxMem x) s = .next t ∧
      (∀ k : Reg, k ≤ x → t.reg k = s.byte (s.i.toNat + k.val)) ∧ (∀ k : Reg, x < k → t.reg k = s.reg k) ∧
      Unchanged [0, 1, 2, 3, 4, 5, 6, 7, 8, 9, 10, 11, 12, 13, 14, 15] [] s t)

/-- 42_index_memory.md R145, R146: registers stored by FX55 come back by FX65, whatever the registers hold between, as
long as memory and `I` are kept; that FX55 itself keeps `I` is decision D23 (R144, log entry 27). -/
def Obligations.StoreThenLoadRestoresRegisters : Prop :=
  ∀ (x : Reg) (s t u : State), s.memWf → exec (.ldMemVx x) s = .next t →
    (∀ a, u.byte a = t.byte a) → u.i = t.i → ∃ v, exec (.ldVxMem x) u = .next v ∧ ∀ k : Reg, k ≤ x → v.reg k = s.reg k

/-- 20_memory.md R63 (marked by the spec as derived): two bytes stored by FX55 are the very next instruction when `PC`
points at them; that it may be odd is decision D21 (log entry 28). -/
def Obligations.NextFetchSeesStore : Prop :=
  ∀ (x k : Reg) (s t : State), s.memWf → exec (.ldMemVx x) s = .next t → k < x →
    t.pc.toNat = s.i.toNat + k.val → ∀ i : Instr,
    decodeWord (BitVec.ofNat 16 ((s.reg k).toNat * 256 + (s.reg (k + 1)).toNat)) = .ok i →
    step t = exec i { t with pc := t.pc + 2 }

/-! ## Display -/

/-- 43_display.md R160, and that a second clear changes nothing; the ignored `x` of the encoding is decision D11 (log entry
13). -/
def Obligations.ClearDisplay : Prop :=
  Encoded 0xF0FF 0x00E0 (fun _ => .cls) ∧
  ∀ s : State, ∃ t, exec .cls s = .next t ∧ (∀ px py, pixelAt t.disp px py = false) ∧ Unchanged [] [.display] s t ∧
    exec .cls t = .next t

/-- 43_display.md R161: each pixel is XORed with the sprite's bit there, start coordinates wrapped, edges clipped; VF is
the collision, also for `n = 0` and for `x` or `y` equal to 15. That all `n` rows are bounds-checked is decision D7 (log
entry 10), the payload of the error decision D6 (log entry 9), that `I` is
kept decision D23 (log entry 27). -/
def Obligations.DrawSprite : Prop :=
  Encoded 0xF000 0xD000 (fun w => .drw (wordX w) (wordY w) (wordN w)) ∧
  ∀ (x y : Reg) (n : Fin 16) (s : State),
    (1 ≤ n.val → s.i.toNat + n.val - 1 > 4095 → exec (.drw x y n) s = .fault (.memoryOutOfBounds (max s.i.toNat 4096))) ∧
    (n.val = 0 ∨ s.i.toNat + n.val - 1 ≤ 4095 → ∃ t, exec (.drw x y n) s = .next t ∧
      (∀ px py, SpriteBit s x y n.val px py → pixelAt t.disp px py = !pixelAt s.disp px py) ∧
      (∀ px py, ¬SpriteBit s x y n.val px py → pixelAt t.disp px py = pixelAt s.disp px py) ∧
      FlagIs (t.reg 15) (∃ px py, SpriteBit s x y n.val px py ∧ pixelAt s.disp px py = true) ∧
      Unchanged [15] [.display] s t)

/-- 43_display.md R162 (a), (b) (marked by the spec as derived): drawing the same sprite twice at the same coordinates
restores the display, and the second draw reports 1 exactly when some visible sprite bit 1 fell on a pixel that was clear
before the first. That the first draw keeps `I` is decision D23 (log entry 27). -/
def Obligations.DrawTwiceRestoresDisplay : Prop :=
  ∀ (x y : Reg) (n : Fin 16) (s t u : State), exec (.drw x y n) s = .next t →
    (t.reg x).toNat % 64 = (s.reg x).toNat % 64 → (t.reg y).toNat % 32 = (s.reg y).toNat % 32 →
    exec (.drw x y n) t = .next u →
    u.disp = s.disp ∧ FlagIs (u.reg 15) (∃ px py, SpriteBit s x y n.val px py ∧ pixelAt s.disp px py = false)

/-- 43_display.md R162 (d) (marked by the spec as derived): a draw of `n` rows changes at most `8 * n` pixels. -/
def Obligations.DrawChangesFewPixels : Prop :=
  ∀ (x y : Reg) (n : Fin 16) (s t : State), exec (.drw x y n) s = .next t →
    ((List.finRange 2048).filter (fun p => readPixel t p != readPixel s p)).length ≤ 8 * n.val

/-! ## Keypad and timers -/

/-- 44_keypad_timers.md R170, R171; that the key is `V[x][3:0]` is decision D9 (R176, log entry 11). -/
def Obligations.SkipsOnKey : Prop :=
  Encoded 0xF0FF 0xE09E (fun w => .skp (wordX w)) ∧ Encoded 0xF0FF 0xE0A1 (fun w => .sknp (wordX w)) ∧
  ∀ (x : Reg) (s : State) (down : Bool), down = s.key.get (Fin.ofNat 16 ((s.reg x).toNat % 16)) →
    (∃ t, exec (.skp x) s = .next t ∧ t.pc = (if down = true then s.pc + 2 else s.pc) ∧ Unchanged [] [.pc] s t) ∧
    (∃ t, exec (.sknp x) s = .next t ∧ t.pc = (if down = true then s.pc else s.pc + 2) ∧ Unchanged [] [.pc] s t)

/-- 44_keypad_timers.md R172: with a key down, the lowest one and on; with none, `PC` is rewound. -/
def Obligations.WaitForKey : Prop :=
  Encoded 0xF0FF 0xF00A (fun w => .ldVxK (wordX w)) ∧
  ∀ (x : Reg) (s : State),
    ((∀ k, s.key.get k = false) → ∃ t, exec (.ldVxK x) s = .next t ∧ t.pc = s.pc - 2 ∧ Unchanged [] [.pc] s t) ∧
    (∀ k, s.key.get k = true → (∀ j, j < k → s.key.get j = false) →
      ∃ t, exec (.ldVxK x) s = .next t ∧ (t.reg x).toNat = k.val ∧ Unchanged [x] [] s t)

/-- 44_keypad_timers.md R172: the net effect of a `Step` at FX0A with no key pressed is that nothing changes;
that `PC` may be odd is decision D21 (log entry 28). -/
def Obligations.WaitingStepChangesNothing : Prop :=
  ∀ (x : Reg) (s : State), s.pc.toNat ≤ 4094 → decodeWord (s.wordAt s.pc.toNat) = .ok (.ldVxK x) →
    (∀ k, s.key.get k = false) → step s = .next s

/-- 44_keypad_timers.md R173 to R175. -/
def Obligations.TimerAccess : Prop :=
  Encoded 0xF0FF 0xF007 (fun w => .ldVxDT (wordX w)) ∧ Encoded 0xF0FF 0xF015 (fun w => .ldDTVx (wordX w)) ∧
  Encoded 0xF0FF 0xF018 (fun w => .ldSTVx (wordX w)) ∧
  ∀ (x : Reg) (s : State),
    (∃ t, exec (.ldVxDT x) s = .next t ∧ t.reg x = s.dt ∧ Unchanged [x] [] s t) ∧
    (∃ t, exec (.ldDTVx x) s = .next t ∧ t.dt = s.reg x ∧ Unchanged [] [.delay] s t) ∧
    (∃ t, exec (.ldSTVx x) s = .next t ∧ t.st = s.reg x ∧ Unchanged [] [.sound] s t)

/-- 60_exceptions.md R215, R217: each timer on its own, with a floor at zero; the tone is on while `ST > 0`. -/
def Obligations.TickCountsDown : Prop :=
  ∀ s : State, (tick s).dt.toNat = s.dt.toNat - 1 ∧ (tick s).st.toNat = s.st.toNat - 1 ∧
    Unchanged [] [.delay, .sound] s (tick s) ∧ (tone s = true ↔ s.st.toNat > 0) ∧ stValue s = s.st

/-- 70_reset_and_hazards.md R250 (marked by the spec as derived): a timer reaches 0 after exactly as many ticks as its
value and stays there. -/
def Obligations.TicksReachZeroAndStay : Prop :=
  ∀ (n : Nat) (s : State), (ticks n s).dt.toNat = s.dt.toNat - n ∧ (ticks n s).st.toNat = s.st.toNat - n ∧
    Unchanged [] [.delay, .sound] s (ticks n s) ∧ ((ticks n s).dt = 0 ↔ s.dt.toNat ≤ n)

/-! ## The host's operations -/

/-- 60_exceptions.md R219, R220: idempotent sets of one key. Keys out of range cannot be said (decision D18, log entry
23). -/
def Obligations.KeyPressAndRelease : Prop :=
  ∀ (k : Fin 16) (s : State),
    (keyPress k s).key.get k = true ∧ (keyRelease k s).key.get k = false ∧
    (∀ j, j ≠ k → (keyPress k s).key.get j = s.key.get j ∧ (keyRelease k s).key.get j = s.key.get j) ∧
    Unchanged [] [.keys] s (keyPress k s) ∧ Unchanged [] [.keys] s (keyRelease k s) ∧
    keyPress k (keyPress k s) = keyPress k s ∧ keyRelease k (keyRelease k s) = keyRelease k s

/-- 60_exceptions.md R221, R222, 10_state.md R31: `PixelIndex` is a bijection onto 0 to 2047, and `ReadPixel` reads the
pixel of that index and changes nothing. Indices out of range cannot be said (decision D18, log entry 23). -/
def Obligations.PixelPort : Prop :=
  (∀ x y, (pixelIndex x y).val = y.val * 64 + x.val) ∧
  (∀ p, ∃ x y, pixelIndex x y = p ∧ ∀ x' y', pixelIndex x' y' = p → x' = x ∧ y' = y) ∧
  ∀ (s : State) x y, perform (.readPixel (pixelIndex x y)) s = (s, .pixel (pixelAt s.disp x y))

/-- 60_exceptions.md R225, R207: the bytes go to 0x200 on and nothing else changes; over 3584 bytes nothing is written.
That the core checks the length is decision D17 (90_conflicts.md C3), that a failing load changes nothing decision D5 (log
entry 8), and that it is performed in any state log entry 25. -/
def Obligations.LoadRomWritesProgram : Prop :=
  ∀ (bytes : List Byte) (s : State),
    (3584 < bytes.length → perform (.loadRom bytes) s = (s, .code (some .romTooLarge))) ∧
    (bytes.length ≤ 3584 → (perform (.loadRom bytes) s).2 = .code none ∧
      Unchanged [] [.memory] s (perform (.loadRom bytes) s).1 ∧
      OnlyBytes 0x200 bytes.length s (perform (.loadRom bytes) s).1 ∧
      (s.memWf → ∀ (j : Nat) (h : j < bytes.length), (perform (.loadRom bytes) s).1.byte (0x200 + j) = bytes[j]))

/-- 10_state.md R20, "written by", for instructions and for the operations of the host; with R23 for `I`; that no
unlisted effect happens is decision D23 (log entry 27). -/
def Obligations.OnlyListedWriters : Prop :=
  (∀ (i : Instr) (s t : State), exec i s = .next t →
    t.key = s.key ∧ t.config = s.config ∧
    (t.i ≠ s.i → (∃ nnn, i = .ldI nnn) ∨ ∃ x, i = .addI x ∨ i = .ldF x) ∧
    (t.stack ≠ s.stack → ∃ nnn, i = .call nnn) ∧
    (t.sp ≠ s.sp → i = .ret ∨ ∃ nnn, i = .call nnn) ∧
    (t.dt ≠ s.dt → ∃ x, i = .ldDTVx x) ∧ (t.st ≠ s.st → ∃ x, i = .ldSTVx x) ∧
    (t.disp ≠ s.disp → i = .cls ∨ ∃ x y n, i = .drw x y n) ∧
    (t.mem ≠ s.mem → ∃ x, i = .ldB x ∨ i = .ldMemVx x)) ∧
  ∀ s : State,
    (∃ d e, tick s = { s with dt := d, st := e }) ∧
    (∀ k, ∃ ks, keyPress k s = { s with key := ks }) ∧ (∀ k, ∃ ks, keyRelease k s = { s with key := ks }) ∧
    (∀ bytes t, loadRom bytes s = .next t → ∃ m, t = { s with mem := m })

/-! ## Reset and boot -/

/-- 10_state.md R36, 70_reset_and_hazards.md R240: every row of the table, for any `FONT`. `PC` is decision D1, and the
rows of `I`, `SP`, the stack, the timers, the keypad and the display decision D2 (log entry 7). -/
def Obligations.ResetState : Prop :=
  State.reset = State.resetWith Config.default ∧
  ∀ cfg : Config, ∃ s, s = State.resetWith cfg ∧
    (∀ r, s.reg r = 0) ∧ s.pc = 0x0200 ∧ s.i = 0x0000 ∧ s.sp.val = 0 ∧ (∀ j, s.stack.get j = 0x0000) ∧ s.dt = 0 ∧ s.st = 0 ∧
    (∀ k, s.key.get k = false) ∧ (∀ p, readPixel s p = false) ∧
    (∀ j : Fin 80, s.byte (0x050 + j.val) = cfg.font.get j) ∧ (∀ a, a < 0x050 ∨ 0x09F < a → s.byte a = 0) ∧
    s.config = cfg

/-- 70_reset_and_hazards.md R240, R241: the host's `Reset` leaves nothing of the state before but the parameters, and it
keeps the model's own count of draws (log entry 2). The values it leaves are those of decisions D1 and D2 (log entry 7). -/
def Obligations.HostResetForgetsEverything : Prop :=
  ∀ s : State, (perform .reset s).2 = .done ∧ (perform .reset s).1 = { State.resetWith s.config with draws := s.draws }

/-- 70_reset_and_hazards.md R243 (marked by the spec as derived): without a ROM the first step finds the word 0x0000,
which is no instruction. That the first step fetches at 0x200 is decision D1 (log entry 7). -/
def Obligations.FirstStepWithoutRom : Prop :=
  ∀ cfg : Config, step (State.resetWith cfg) = .fault (.unknownInstruction 0x0000)

/-- 70_reset_and_hazards.md R242: after `Reset` and `LoadRom`, the first instruction executed is the word of the first two
bytes of the ROM. That it is fetched at 0x200 is decision D1 (log entry 7). -/
def Obligations.BootRunsFirstRomWord : Prop :=
  ∀ (s : State) (b0 b1 : Byte) (rest : List Byte) (i : Instr), rest.length + 2 ≤ 3584 →
    decodeWord (BitVec.ofNat 16 (b0.toNat * 256 + b1.toNat)) = .ok i → ∃ u : State,
      (performAll [.reset, .loadRom (b0 :: b1 :: rest)] s).1 = u ∧ u.pc = 0x0200 ∧ step u = exec i { u with pc := 0x0202 }

/-- 70_reset_and_hazards.md R246 (the spec's convention, decision D19): at a jump to itself a step changes nothing.
That `PC` may be odd is decision D21 (log entry 28). -/
def Obligations.EndedStateIsFixed : Prop :=
  ∀ s : State, ended s = true → step s = .next s

/-! ## Invariants -/

/-- Memory keeps its canonical form (log entry 20): equal memories are equal lists. -/
def Obligations.StepKeepsMemoryCanonical : Prop :=
  ∀ s t : State, s.memWf → step s = .next t → t.memWf

/-- 10_state.md R25 (marked by the spec as derived): `PC` never exceeds 0x10FE, because the live stack entries are
return addresses from 2 to 4096. -/
def Obligations.StepKeepsPcBounded : Prop :=
  ∀ s t : State, PcBounded s → step s = .next t → PcBounded t

/-- Both invariants survive every command of the host, those that report an error too: the state left by an error is
decision D5 (60_exceptions.md R208, log entry 8), the values `Reset` leaves decisions D1 and D2 (log entry 7), the form of
memory the model's (log entry 20). -/
def Obligations.CommandsKeepInvariants : Prop :=
  ∀ (c : Command) (s : State), s.memWf → PcBounded s → (perform c s).1.memWf ∧ PcBounded (perform c s).1

/-- Both invariants hold after reset: `PC` and `SP` there are decisions D1 and D2 (log entry 7), the form of memory is the
model's (log entry 20). -/
def Obligations.InvariantsHoldAtReset : Prop :=
  ∀ cfg : Config, (State.resetWith cfg).memWf ∧ PcBounded (State.resetWith cfg)

/-- 10_state.md R24: `PC` never wraps within a step that succeeds: where the instruction does not assign it, it has moved
by 0, 2 or 4 as a natural number. That it may be odd is decision D21 (log entry 28). -/
def Obligations.PcMovesByWholeInstructions : Prop :=
  ∀ (s t : State) (i : Instr), s.pc.toNat ≤ 4094 → decodeWord (s.wordAt s.pc.toNat) = .ok i → step s = .next t →
    (i ≠ .ret ∧ (∀ nnn, i ≠ .jp nnn ∧ i ≠ .call nnn ∧ i ≠ .jpV0 nnn)) →
    t.pc.toNat = s.pc.toNat + 2 ∨
    (t.pc.toNat = s.pc.toNat + 4 ∧ ((∃ x nn, i = .seImm x nn ∨ i = .sneImm x nn) ∨ (∃ x y, i = .seReg x y ∨ i = .sneReg x y) ∨
      ∃ x, i = .skp x ∨ i = .sknp x)) ∨
    (t.pc.toNat = s.pc.toNat ∧ ∃ x, i = .ldVxK x)

/-! ## What cannot be learned -/

/-- 10_state.md R29: no instruction reads `ST`: its value changes nothing but itself. -/
def Obligations.SoundTimerIsNeverRead : Prop :=
  ∀ (i : Instr) (s : State) (b : Byte), (∀ x, i ≠ .ldSTVx x) →
    exec i { s with st := b } = mapNext (fun t => { t with st := b }) (exec i s)

/-- 10_state.md R28, R30, R31: the delay timer is read by FX07 only, the keypad by EX9E, EXA1 and FX0A only, the display
by DXYN only; and 60_exceptions.md R224: the random input, here the model's count of draws (log entries 1 and 2), by CXNN
only. -/
def Obligations.TimerKeypadDisplayReaders : Prop :=
  ∀ (i : Instr) (s : State),
    (∀ b : Byte, (∀ x, i ≠ .ldVxDT x ∧ i ≠ .ldDTVx x) →
      exec i { s with dt := b } = mapNext (fun t => { t with dt := b }) (exec i s)) ∧
    (∀ ks : Vector Bool 16, (∀ x, i ≠ .skp x ∧ i ≠ .sknp x ∧ i ≠ .ldVxK x) →
      exec i { s with key := ks } = mapNext (fun t => { t with key := ks }) (exec i s)) ∧
    (∀ d : Display, i ≠ .cls → (∀ x y n, i ≠ .drw x y n) →
      exec i { s with disp := d } = mapNext (fun t => { t with disp := d }) (exec i s)) ∧
    (∀ n : Nat, (∀ x nn, i ≠ .rnd x nn) →
      exec i { s with draws := n } = mapNext (fun t => { t with draws := n }) (exec i s))
end

