-- ==== Sys2Proof/Laws/State.lean ====
section
/-! SUPPORT. One lemma a field for each update of the state, and what registers read after each. -/

namespace Sys2Proof.Machine

variable (s : State)

@[simp] theorem setReg_i (r : Reg) (b : Byte) : (s.setReg r b).i = s.i := rfl
@[simp] theorem setReg_pc (r : Reg) (b : Byte) : (s.setReg r b).pc = s.pc := rfl
@[simp] theorem setReg_stack (r : Reg) (b : Byte) : (s.setReg r b).stack = s.stack := rfl
@[simp] theorem setReg_sp (r : Reg) (b : Byte) : (s.setReg r b).sp = s.sp := rfl
@[simp] theorem setReg_dt (r : Reg) (b : Byte) : (s.setReg r b).dt = s.dt := rfl
@[simp] theorem setReg_st (r : Reg) (b : Byte) : (s.setReg r b).st = s.st := rfl
@[simp] theorem setReg_key (r : Reg) (b : Byte) : (s.setReg r b).key = s.key := rfl
@[simp] theorem setReg_disp (r : Reg) (b : Byte) : (s.setReg r b).disp = s.disp := rfl
@[simp] theorem setReg_mem (r : Reg) (b : Byte) : (s.setReg r b).mem = s.mem := rfl
@[simp] theorem setReg_config (r : Reg) (b : Byte) : (s.setReg r b).config = s.config := rfl
@[simp] theorem setReg_draws (r : Reg) (b : Byte) : (s.setReg r b).draws = s.draws := rfl

@[simp] theorem setFlag_i (b : Bool) : (s.setFlag b).i = s.i := rfl
@[simp] theorem setFlag_pc (b : Bool) : (s.setFlag b).pc = s.pc := rfl
@[simp] theorem setFlag_stack (b : Bool) : (s.setFlag b).stack = s.stack := rfl
@[simp] theorem setFlag_sp (b : Bool) : (s.setFlag b).sp = s.sp := rfl
@[simp] theorem setFlag_dt (b : Bool) : (s.setFlag b).dt = s.dt := rfl
@[simp] theorem setFlag_st (b : Bool) : (s.setFlag b).st = s.st := rfl
@[simp] theorem setFlag_key (b : Bool) : (s.setFlag b).key = s.key := rfl
@[simp] theorem setFlag_disp (b : Bool) : (s.setFlag b).disp = s.disp := rfl
@[simp] theorem setFlag_mem (b : Bool) : (s.setFlag b).mem = s.mem := rfl
@[simp] theorem setFlag_config (b : Bool) : (s.setFlag b).config = s.config := rfl
@[simp] theorem setFlag_draws (b : Bool) : (s.setFlag b).draws = s.draws := rfl

@[simp] theorem setResultFlag_i (x : Reg) (b : Byte) (f : Bool) : (s.setResultFlag x b f).i = s.i := rfl
@[simp] theorem setResultFlag_pc (x : Reg) (b : Byte) (f : Bool) : (s.setResultFlag x b f).pc = s.pc := rfl
@[simp] theorem setResultFlag_stack (x : Reg) (b : Byte) (f : Bool) : (s.setResultFlag x b f).stack = s.stack := rfl
@[simp] theorem setResultFlag_sp (x : Reg) (b : Byte) (f : Bool) : (s.setResultFlag x b f).sp = s.sp := rfl
@[simp] theorem setResultFlag_dt (x : Reg) (b : Byte) (f : Bool) : (s.setResultFlag x b f).dt = s.dt := rfl
@[simp] theorem setResultFlag_st (x : Reg) (b : Byte) (f : Bool) : (s.setResultFlag x b f).st = s.st := rfl
@[simp] theorem setResultFlag_key (x : Reg) (b : Byte) (f : Bool) : (s.setResultFlag x b f).key = s.key := rfl
@[simp] theorem setResultFlag_disp (x : Reg) (b : Byte) (f : Bool) : (s.setResultFlag x b f).disp = s.disp := rfl
@[simp] theorem setResultFlag_mem (x : Reg) (b : Byte) (f : Bool) : (s.setResultFlag x b f).mem = s.mem := rfl
@[simp] theorem setResultFlag_config (x : Reg) (b : Byte) (f : Bool) : (s.setResultFlag x b f).config = s.config := rfl
@[simp] theorem setResultFlag_draws (x : Reg) (b : Byte) (f : Bool) : (s.setResultFlag x b f).draws = s.draws := rfl

@[simp] theorem setI_v (a : Word) : (s.setI a).v = s.v := rfl
@[simp] theorem setI_i (a : Word) : (s.setI a).i = a := rfl
@[simp] theorem setI_pc (a : Word) : (s.setI a).pc = s.pc := rfl
@[simp] theorem setI_stack (a : Word) : (s.setI a).stack = s.stack := rfl
@[simp] theorem setI_sp (a : Word) : (s.setI a).sp = s.sp := rfl
@[simp] theorem setI_dt (a : Word) : (s.setI a).dt = s.dt := rfl
@[simp] theorem setI_st (a : Word) : (s.setI a).st = s.st := rfl
@[simp] theorem setI_key (a : Word) : (s.setI a).key = s.key := rfl
@[simp] theorem setI_disp (a : Word) : (s.setI a).disp = s.disp := rfl
@[simp] theorem setI_mem (a : Word) : (s.setI a).mem = s.mem := rfl
@[simp] theorem setI_config (a : Word) : (s.setI a).config = s.config := rfl
@[simp] theorem setI_draws (a : Word) : (s.setI a).draws = s.draws := rfl

@[simp] theorem setPc_v (a : Word) : (s.setPc a).v = s.v := rfl
@[simp] theorem setPc_i (a : Word) : (s.setPc a).i = s.i := rfl
@[simp] theorem setPc_pc (a : Word) : (s.setPc a).pc = a := rfl
@[simp] theorem setPc_stack (a : Word) : (s.setPc a).stack = s.stack := rfl
@[simp] theorem setPc_sp (a : Word) : (s.setPc a).sp = s.sp := rfl
@[simp] theorem setPc_dt (a : Word) : (s.setPc a).dt = s.dt := rfl
@[simp] theorem setPc_st (a : Word) : (s.setPc a).st = s.st := rfl
@[simp] theorem setPc_key (a : Word) : (s.setPc a).key = s.key := rfl
@[simp] theorem setPc_disp (a : Word) : (s.setPc a).disp = s.disp := rfl
@[simp] theorem setPc_mem (a : Word) : (s.setPc a).mem = s.mem := rfl
@[simp] theorem setPc_config (a : Word) : (s.setPc a).config = s.config := rfl
@[simp] theorem setPc_draws (a : Word) : (s.setPc a).draws = s.draws := rfl

@[simp] theorem setDt_v (b : Byte) : (s.setDt b).v = s.v := rfl
@[simp] theorem setDt_i (b : Byte) : (s.setDt b).i = s.i := rfl
@[simp] theorem setDt_pc (b : Byte) : (s.setDt b).pc = s.pc := rfl
@[simp] theorem setDt_stack (b : Byte) : (s.setDt b).stack = s.stack := rfl
@[simp] theorem setDt_sp (b : Byte) : (s.setDt b).sp = s.sp := rfl
@[simp] theorem setDt_dt (b : Byte) : (s.setDt b).dt = b := rfl
@[simp] theorem setDt_st (b : Byte) : (s.setDt b).st = s.st := rfl
@[simp] theorem setDt_key (b : Byte) : (s.setDt b).key = s.key := rfl
@[simp] theorem setDt_disp (b : Byte) : (s.setDt b).disp = s.disp := rfl
@[simp] theorem setDt_mem (b : Byte) : (s.setDt b).mem = s.mem := rfl
@[simp] theorem setDt_config (b : Byte) : (s.setDt b).config = s.config := rfl
@[simp] theorem setDt_draws (b : Byte) : (s.setDt b).draws = s.draws := rfl

@[simp] theorem setSt_v (b : Byte) : (s.setSt b).v = s.v := rfl
@[simp] theorem setSt_i (b : Byte) : (s.setSt b).i = s.i := rfl
@[simp] theorem setSt_pc (b : Byte) : (s.setSt b).pc = s.pc := rfl
@[simp] theorem setSt_stack (b : Byte) : (s.setSt b).stack = s.stack := rfl
@[simp] theorem setSt_sp (b : Byte) : (s.setSt b).sp = s.sp := rfl
@[simp] theorem setSt_dt (b : Byte) : (s.setSt b).dt = s.dt := rfl
@[simp] theorem setSt_st (b : Byte) : (s.setSt b).st = b := rfl
@[simp] theorem setSt_key (b : Byte) : (s.setSt b).key = s.key := rfl
@[simp] theorem setSt_disp (b : Byte) : (s.setSt b).disp = s.disp := rfl
@[simp] theorem setSt_mem (b : Byte) : (s.setSt b).mem = s.mem := rfl
@[simp] theorem setSt_config (b : Byte) : (s.setSt b).config = s.config := rfl
@[simp] theorem setSt_draws (b : Byte) : (s.setSt b).draws = s.draws := rfl

@[simp] theorem setKey_v (k : Fin 16) (b : Bool) : (s.setKey k b).v = s.v := rfl
@[simp] theorem setKey_i (k : Fin 16) (b : Bool) : (s.setKey k b).i = s.i := rfl
@[simp] theorem setKey_pc (k : Fin 16) (b : Bool) : (s.setKey k b).pc = s.pc := rfl
@[simp] theorem setKey_stack (k : Fin 16) (b : Bool) : (s.setKey k b).stack = s.stack := rfl
@[simp] theorem setKey_sp (k : Fin 16) (b : Bool) : (s.setKey k b).sp = s.sp := rfl
@[simp] theorem setKey_dt (k : Fin 16) (b : Bool) : (s.setKey k b).dt = s.dt := rfl
@[simp] theorem setKey_st (k : Fin 16) (b : Bool) : (s.setKey k b).st = s.st := rfl
@[simp] theorem setKey_disp (k : Fin 16) (b : Bool) : (s.setKey k b).disp = s.disp := rfl
@[simp] theorem setKey_mem (k : Fin 16) (b : Bool) : (s.setKey k b).mem = s.mem := rfl
@[simp] theorem setKey_config (k : Fin 16) (b : Bool) : (s.setKey k b).config = s.config := rfl
@[simp] theorem setKey_draws (k : Fin 16) (b : Bool) : (s.setKey k b).draws = s.draws := rfl

@[simp] theorem setDisp_v (d : Display) : (s.setDisp d).v = s.v := rfl
@[simp] theorem setDisp_i (d : Display) : (s.setDisp d).i = s.i := rfl
@[simp] theorem setDisp_pc (d : Display) : (s.setDisp d).pc = s.pc := rfl
@[simp] theorem setDisp_stack (d : Display) : (s.setDisp d).stack = s.stack := rfl
@[simp] theorem setDisp_sp (d : Display) : (s.setDisp d).sp = s.sp := rfl
@[simp] theorem setDisp_dt (d : Display) : (s.setDisp d).dt = s.dt := rfl
@[simp] theorem setDisp_st (d : Display) : (s.setDisp d).st = s.st := rfl
@[simp] theorem setDisp_key (d : Display) : (s.setDisp d).key = s.key := rfl
@[simp] theorem setDisp_disp (d : Display) : (s.setDisp d).disp = d := rfl
@[simp] theorem setDisp_mem (d : Display) : (s.setDisp d).mem = s.mem := rfl
@[simp] theorem setDisp_config (d : Display) : (s.setDisp d).config = s.config := rfl
@[simp] theorem setDisp_draws (d : Display) : (s.setDisp d).draws = s.draws := rfl

@[simp] theorem drawn_v : s.drawn.v = s.v := rfl
@[simp] theorem drawn_i : s.drawn.i = s.i := rfl
@[simp] theorem drawn_pc : s.drawn.pc = s.pc := rfl
@[simp] theorem drawn_stack : s.drawn.stack = s.stack := rfl
@[simp] theorem drawn_sp : s.drawn.sp = s.sp := rfl
@[simp] theorem drawn_dt : s.drawn.dt = s.dt := rfl
@[simp] theorem drawn_st : s.drawn.st = s.st := rfl
@[simp] theorem drawn_key : s.drawn.key = s.key := rfl
@[simp] theorem drawn_disp : s.drawn.disp = s.disp := rfl
@[simp] theorem drawn_mem : s.drawn.mem = s.mem := rfl
@[simp] theorem drawn_config : s.drawn.config = s.config := rfl
@[simp] theorem drawn_draws : s.drawn.draws = s.draws + 1 := rfl

@[simp] theorem setByte_v (a : Nat) (b : Byte) : (s.setByte a b).v = s.v := rfl
@[simp] theorem setByte_i (a : Nat) (b : Byte) : (s.setByte a b).i = s.i := rfl
@[simp] theorem setByte_pc (a : Nat) (b : Byte) : (s.setByte a b).pc = s.pc := rfl
@[simp] theorem setByte_stack (a : Nat) (b : Byte) : (s.setByte a b).stack = s.stack := rfl
@[simp] theorem setByte_sp (a : Nat) (b : Byte) : (s.setByte a b).sp = s.sp := rfl
@[simp] theorem setByte_dt (a : Nat) (b : Byte) : (s.setByte a b).dt = s.dt := rfl
@[simp] theorem setByte_st (a : Nat) (b : Byte) : (s.setByte a b).st = s.st := rfl
@[simp] theorem setByte_key (a : Nat) (b : Byte) : (s.setByte a b).key = s.key := rfl
@[simp] theorem setByte_disp (a : Nat) (b : Byte) : (s.setByte a b).disp = s.disp := rfl
@[simp] theorem setByte_config (a : Nat) (b : Byte) : (s.setByte a b).config = s.config := rfl
@[simp] theorem setByte_draws (a : Nat) (b : Byte) : (s.setByte a b).draws = s.draws := rfl

@[simp] theorem setKey_key (k : Fin 16) (b : Bool) : (s.setKey k b).key = s.key.set k.val b k.isLt := rfl
@[simp] theorem setByte_mem (a : Nat) (b : Byte) : (s.setByte a b).mem = Memory.write s.config.font s.mem a b := rfl

/-! Registers. -/

theorem reg_of_v_eq {s t : State} (h : t.v = s.v) (q : Reg) : t.reg q = s.reg q := by simp [State.reg, h]

@[simp] theorem reg_setReg (r q : Reg) (b : Byte) : (s.setReg r b).reg q = if q = r then b else s.reg q := by
  simp only [State.reg, State.setReg, Vector.get_eq_getElem, Vector.getElem_set, Fin.ext_iff, eq_comm]

@[simp] theorem reg_setFlag (q : Reg) (b : Bool) : (s.setFlag b).reg q = if q = 15 then flagByte b else s.reg q := by
  simp [State.setFlag]

@[simp] theorem reg_setResultFlag (x q : Reg) (b : Byte) (f : Bool) :
    (s.setResultFlag x b f).reg q = if q = 15 then flagByte f else if q = x then b else s.reg q := by
  simp [State.setResultFlag]

@[simp] theorem reg_setI (a : Word) (q : Reg) : (s.setI a).reg q = s.reg q := rfl
@[simp] theorem reg_setPc (a : Word) (q : Reg) : (s.setPc a).reg q = s.reg q := rfl
@[simp] theorem reg_setDt (b : Byte) (q : Reg) : (s.setDt b).reg q = s.reg q := rfl
@[simp] theorem reg_setSt (b : Byte) (q : Reg) : (s.setSt b).reg q = s.reg q := rfl
@[simp] theorem reg_setKey (k : Fin 16) (b : Bool) (q : Reg) : (s.setKey k b).reg q = s.reg q := rfl
@[simp] theorem reg_setDisp (d : Display) (q : Reg) : (s.setDisp d).reg q = s.reg q := rfl
@[simp] theorem reg_drawn (q : Reg) : s.drawn.reg q = s.reg q := rfl
@[simp] theorem reg_setByte (a : Nat) (b : Byte) (q : Reg) : (s.setByte a b).reg q = s.reg q := rfl

/-! Memory reads see only the cells and the font. -/

theorem byte_of_mem_eq {s t : State} (hm : t.mem = s.mem) (hc : t.config = s.config) (a : Nat) : t.byte a = s.byte a := by
  simp [State.byte, hm, hc]

@[simp] theorem byte_setReg (r : Reg) (b : Byte) (q : Nat) : (s.setReg r b).byte q = s.byte q := rfl
@[simp] theorem byte_setFlag (b : Bool) (q : Nat) : (s.setFlag b).byte q = s.byte q := rfl
@[simp] theorem byte_setResultFlag (x : Reg) (b : Byte) (f : Bool) (q : Nat) : (s.setResultFlag x b f).byte q = s.byte q := rfl
@[simp] theorem byte_setI (a : Word) (q : Nat) : (s.setI a).byte q = s.byte q := rfl
@[simp] theorem byte_setPc (a : Word) (q : Nat) : (s.setPc a).byte q = s.byte q := rfl
@[simp] theorem byte_setDt (b : Byte) (q : Nat) : (s.setDt b).byte q = s.byte q := rfl
@[simp] theorem byte_setSt (b : Byte) (q : Nat) : (s.setSt b).byte q = s.byte q := rfl
@[simp] theorem byte_setKey (k : Fin 16) (b : Bool) (q : Nat) : (s.setKey k b).byte q = s.byte q := rfl
@[simp] theorem byte_setDisp (d : Display) (q : Nat) : (s.setDisp d).byte q = s.byte q := rfl
@[simp] theorem byte_drawn (q : Nat) : s.drawn.byte q = s.byte q := rfl

/-! Skips. -/

@[simp] theorem skipIf_v (c : Bool) : (s.skipIf c).v = s.v := by cases c <;> rfl
@[simp] theorem skipIf_i (c : Bool) : (s.skipIf c).i = s.i := by cases c <;> rfl
@[simp] theorem skipIf_stack (c : Bool) : (s.skipIf c).stack = s.stack := by cases c <;> rfl
@[simp] theorem skipIf_sp (c : Bool) : (s.skipIf c).sp = s.sp := by cases c <;> rfl
@[simp] theorem skipIf_dt (c : Bool) : (s.skipIf c).dt = s.dt := by cases c <;> rfl
@[simp] theorem skipIf_st (c : Bool) : (s.skipIf c).st = s.st := by cases c <;> rfl
@[simp] theorem skipIf_key (c : Bool) : (s.skipIf c).key = s.key := by cases c <;> rfl
@[simp] theorem skipIf_disp (c : Bool) : (s.skipIf c).disp = s.disp := by cases c <;> rfl
@[simp] theorem skipIf_mem (c : Bool) : (s.skipIf c).mem = s.mem := by cases c <;> rfl
@[simp] theorem skipIf_config (c : Bool) : (s.skipIf c).config = s.config := by cases c <;> rfl
@[simp] theorem skipIf_draws (c : Bool) : (s.skipIf c).draws = s.draws := by cases c <;> rfl
@[simp] theorem skipIf_pc (c : Bool) : (s.skipIf c).pc = if c then s.pc + 2 else s.pc := by cases c <;> rfl
@[simp] theorem reg_skipIf (c : Bool) (q : Reg) : (s.skipIf c).reg q = s.reg q := by cases c <;> rfl
@[simp] theorem byte_skipIf (c : Bool) (q : Nat) : (s.skipIf c).byte q = s.byte q := by cases c <;> rfl

/-! Loading several registers (42_index_memory.md R146): registers outside the range keep their values. -/

theorem setRegs_reg (bs : List Byte) (k : Nat) (hk : k + bs.length ≤ 16) (q : Reg) :
    (s.setRegs k bs).reg q = if h : k ≤ q.val ∧ q.val < k + bs.length then bs[q.val - k]'(by omega) else s.reg q := by
  induction bs generalizing s k with
  | nil => simp [State.setRegs]
  | cons b bs ih =>
    simp only [List.length_cons] at hk
    rw [State.setRegs, ih _ _ (by omega)]
    have hv : (Fin.ofNat 16 k).val = k := by simp [Fin.ofNat]; omega
    have he : (q = Fin.ofNat 16 k) = (q.val = k) := by rw [Fin.ext_iff, hv]
    by_cases h1 : k + 1 ≤ q.val ∧ q.val < k + 1 + bs.length
    · have h2 : k ≤ q.val ∧ q.val < k + (b :: bs).length := by simp; omega
      rw [dif_pos h1, dif_pos h2]
      have h3 : q.val - k = (q.val - (k + 1)) + 1 := by omega
      simp only [h3, List.getElem_cons_succ]
    · rw [dif_neg h1]
      by_cases h2 : q.val = k
      · have h3 : k ≤ q.val ∧ q.val < k + (b :: bs).length := by simp; omega
        rw [dif_pos h3, reg_setReg, if_pos (by rw [he]; exact h2)]
        simp [h2]
      · have h3 : ¬(k ≤ q.val ∧ q.val < k + (b :: bs).length) := by simp; omega
        rw [dif_neg h3, reg_setReg, if_neg (by rw [he]; exact h2)]

@[simp] theorem setRegs_i (bs : List Byte) (k : Nat) : (s.setRegs k bs).i = s.i := by
  induction bs generalizing s k <;> simp_all [State.setRegs]
@[simp] theorem setRegs_pc (bs : List Byte) (k : Nat) : (s.setRegs k bs).pc = s.pc := by
  induction bs generalizing s k <;> simp_all [State.setRegs]
@[simp] theorem setRegs_stack (bs : List Byte) (k : Nat) : (s.setRegs k bs).stack = s.stack := by
  induction bs generalizing s k <;> simp_all [State.setRegs]
@[simp] theorem setRegs_sp (bs : List Byte) (k : Nat) : (s.setRegs k bs).sp = s.sp := by
  induction bs generalizing s k <;> simp_all [State.setRegs]
@[simp] theorem setRegs_dt (bs : List Byte) (k : Nat) : (s.setRegs k bs).dt = s.dt := by
  induction bs generalizing s k <;> simp_all [State.setRegs]
@[simp] theorem setRegs_st (bs : List Byte) (k : Nat) : (s.setRegs k bs).st = s.st := by
  induction bs generalizing s k <;> simp_all [State.setRegs]
@[simp] theorem setRegs_key (bs : List Byte) (k : Nat) : (s.setRegs k bs).key = s.key := by
  induction bs generalizing s k <;> simp_all [State.setRegs]
@[simp] theorem setRegs_disp (bs : List Byte) (k : Nat) : (s.setRegs k bs).disp = s.disp := by
  induction bs generalizing s k <;> simp_all [State.setRegs]
@[simp] theorem setRegs_mem (bs : List Byte) (k : Nat) : (s.setRegs k bs).mem = s.mem := by
  induction bs generalizing s k <;> simp_all [State.setRegs]
@[simp] theorem setRegs_config (bs : List Byte) (k : Nat) : (s.setRegs k bs).config = s.config := by
  induction bs generalizing s k <;> simp_all [State.setRegs]
@[simp] theorem setRegs_draws (bs : List Byte) (k : Nat) : (s.setRegs k bs).draws = s.draws := by
  induction bs generalizing s k <;> simp_all [State.setRegs]
@[simp] theorem byte_setRegs (bs : List Byte) (k a : Nat) : (s.setRegs k bs).byte a = s.byte a :=
  byte_of_mem_eq (by simp) (by simp) a

/-! Storing several bytes touches memory only. -/

@[simp] theorem setBytes_v (bs : List Byte) (a : Nat) : (s.setBytes a bs).v = s.v := by
  induction bs generalizing s a <;> simp_all [State.setBytes]
@[simp] theorem setBytes_i (bs : List Byte) (a : Nat) : (s.setBytes a bs).i = s.i := by
  induction bs generalizing s a <;> simp_all [State.setBytes]
@[simp] theorem setBytes_pc (bs : List Byte) (a : Nat) : (s.setBytes a bs).pc = s.pc := by
  induction bs generalizing s a <;> simp_all [State.setBytes]
@[simp] theorem setBytes_stack (bs : List Byte) (a : Nat) : (s.setBytes a bs).stack = s.stack := by
  induction bs generalizing s a <;> simp_all [State.setBytes]
@[simp] theorem setBytes_sp (bs : List Byte) (a : Nat) : (s.setBytes a bs).sp = s.sp := by
  induction bs generalizing s a <;> simp_all [State.setBytes]
@[simp] theorem setBytes_dt (bs : List Byte) (a : Nat) : (s.setBytes a bs).dt = s.dt := by
  induction bs generalizing s a <;> simp_all [State.setBytes]
@[simp] theorem setBytes_st (bs : List Byte) (a : Nat) : (s.setBytes a bs).st = s.st := by
  induction bs generalizing s a <;> simp_all [State.setBytes]
@[simp] theorem setBytes_key (bs : List Byte) (a : Nat) : (s.setBytes a bs).key = s.key := by
  induction bs generalizing s a <;> simp_all [State.setBytes]
@[simp] theorem setBytes_disp (bs : List Byte) (a : Nat) : (s.setBytes a bs).disp = s.disp := by
  induction bs generalizing s a <;> simp_all [State.setBytes]
@[simp] theorem setBytes_config (bs : List Byte) (a : Nat) : (s.setBytes a bs).config = s.config := by
  induction bs generalizing s a <;> simp_all [State.setBytes]
@[simp] theorem setBytes_draws (bs : List Byte) (a : Nat) : (s.setBytes a bs).draws = s.draws := by
  induction bs generalizing s a <;> simp_all [State.setBytes]
@[simp] theorem reg_setBytes (bs : List Byte) (a : Nat) (q : Reg) : (s.setBytes a bs).reg q = s.reg q :=
  reg_of_v_eq (by simp) q

end Sys2Proof.Machine
end

