-- ==== Sys2Proof/Laws/Memory.lean ====
section
/-! SUPPORT. Memory: a read after a write, and that every operation keeps the canonical form. -/

namespace Sys2Proof.Machine

variable (font : Font)

/-- Memory after reset is canonical: nothing is listed. -/
@[simp] theorem wf_nil (font : Font) : Memory.wf font [] = true := rfl

/-- The form from a higher address is the form from a lower one. -/
theorem wfFrom_mono {lo lo' : Nat} {m : List Host.Cell} (h : lo ≤ lo') (hm : Memory.wfFrom font lo' m = true) :
    Memory.wfFrom font lo m = true := by
  cases m with
  | nil => rfl
  | cons c m =>
    obtain ⟨b, w⟩ := c
    simp only [Memory.wfFrom, Bool.and_eq_true, decide_eq_true_eq] at hm ⊢
    exact ⟨⟨⟨by omega, hm.1.1.2⟩, hm.1.2⟩, hm.2⟩

theorem read_below {lo a : Nat} {m : List Host.Cell} (hm : Memory.wfFrom font lo m = true) (h : a < lo) :
    Memory.read font m a = Memory.unlisted font a := by
  induction m generalizing lo with
  | nil => rfl
  | cons c m ih =>
    obtain ⟨b, w⟩ := c
    simp only [Memory.wfFrom, Bool.and_eq_true, decide_eq_true_eq] at hm
    have hb : b ≠ a := by omega
    simp only [Memory.read, hb, if_false]
    exact ih hm.2 (by omega)

theorem read_consCell {lo a : Nat} {m : List Host.Cell} (hm : Memory.wfFrom font lo m = true) (h : a < lo) (v : Byte) (q : Nat) :
    Memory.read font (Memory.consCell font a v m) q = if q = a then v else Memory.read font m q := by
  unfold Memory.consCell
  split
  · next hv =>
    split
    · next hq => subst hq; rw [read_below font hm h, hv]
    · rfl
  · simp [Memory.read, eq_comm]

theorem wfFrom_consCell {lo a : Nat} {m : List Host.Cell} (hm : Memory.wfFrom font (a + 1) m = true) (hlo : lo ≤ a)
    (ha : a ≤ 4095) (v : Byte) : Memory.wfFrom font lo (Memory.consCell font a v m) = true := by
  unfold Memory.consCell
  split
  · exact wfFrom_mono font (by omega) hm
  · next hv => simp [Memory.wfFrom, hlo, ha, hm, hv]

/-- A write keeps the canonical form. -/
theorem wfFrom_write {lo a : Nat} {m : List Host.Cell} (hm : Memory.wfFrom font lo m = true) (hlo : lo ≤ a) (ha : a ≤ 4095)
    (v : Byte) : Memory.wfFrom font lo (Memory.write font m a v) = true := by
  induction m generalizing lo with
  | nil => exact wfFrom_consCell font rfl hlo ha v
  | cons c m ih =>
    obtain ⟨b, w⟩ := c
    have hc := hm
    simp only [Memory.wfFrom, Bool.and_eq_true, decide_eq_true_eq] at hm
    unfold Memory.write
    split
    · refine wfFrom_consCell font ?_ hlo ha v
      simp only [Memory.wfFrom, Bool.and_eq_true, decide_eq_true_eq]
      exact ⟨⟨⟨by omega, hm.1.1.2⟩, hm.1.2⟩, hm.2⟩
    · split
      · next hab => subst hab; exact wfFrom_consCell font hm.2 hlo ha v
      · simp only [Memory.wfFrom, Bool.and_eq_true, decide_eq_true_eq]
        exact ⟨hm.1, ih hm.2 (by omega)⟩

/-- A read after a write (20_memory.md R61). -/
theorem read_write {lo : Nat} {m : List Host.Cell} (hm : Memory.wfFrom font lo m = true) (a : Nat) (v : Byte) (q : Nat) :
    Memory.read font (Memory.write font m a v) q = if q = a then v else Memory.read font m q := by
  induction m generalizing lo with
  | nil => exact read_consCell font (lo := a + 1) rfl (by omega) v q
  | cons c m ih =>
    obtain ⟨b, w⟩ := c
    have hm' := hm
    simp only [Memory.wfFrom, Bool.and_eq_true, decide_eq_true_eq] at hm
    unfold Memory.write
    split
    · next hab =>
      have hb : Memory.wfFrom font b ((b, w) :: m) = true := by
        simp only [Memory.wfFrom, Bool.and_eq_true, decide_eq_true_eq]
        exact ⟨⟨⟨le_refl b, hm.1.1.2⟩, hm.1.2⟩, hm.2⟩
      exact read_consCell font hb hab v q
    · split
      · next hab =>
        subst hab
        rw [read_consCell font hm.2 (by omega)]
        by_cases hq : q = a
        · simp [hq]
        · have hq' : a ≠ q := fun h => hq h.symm
          simp [hq, hq', Memory.read]
      · next hlt hne =>
        simp only [Memory.read]
        by_cases hq : b = q
        · subst hq
          have hne' : b ≠ a := fun h => hne h.symm
          simp [hne']
        · simp only [hq, if_false]
          exact ih hm.2

/-- A write leaves every other address alone, whatever the list. -/
theorem read_write_other (m : List Host.Cell) {a q : Nat} (v : Byte) (h : q ≠ a) :
    Memory.read font (Memory.write font m a v) q = Memory.read font m q := by
  have hc : ∀ m, Memory.read font (Memory.consCell font a v m) q = Memory.read font m q := by
    intro m
    unfold Memory.consCell
    split
    · rfl
    · simp [Memory.read, Ne.symm h]
  induction m with
  | nil => exact hc []
  | cons c m ih =>
    obtain ⟨b, w⟩ := c
    unfold Memory.write
    split
    · exact hc _
    · split
      · next hab => subst hab; rw [hc, Memory.read, if_neg (Ne.symm h)]
      · simp only [Memory.read, ih]

theorem byte_setByte_other (s : State) {a q : Nat} (b : Byte) (h : q ≠ a) : (s.setByte a b).byte q = s.byte q :=
  read_write_other _ _ b h

theorem byte_setBytes_other (s : State) {a q : Nat} {bs : List Byte} (h : ¬(a ≤ q ∧ q < a + bs.length)) :
    (s.setBytes a bs).byte q = s.byte q := by
  induction bs generalizing s a with
  | nil => rfl
  | cons b bs ih =>
    simp only [List.length_cons] at h
    rw [State.setBytes, ih _ (by omega), byte_setByte_other _ _ (by omega)]

theorem byte_setByte {s : State} (h : s.memWf) (a : Nat) (b : Byte) (q : Nat) :
    (s.setByte a b).byte q = if q = a then b else s.byte q :=
  read_write _ h a b q

theorem memWf_setByte {s : State} (h : s.memWf) {a : Nat} (ha : a ≤ 4095) (b : Byte) : (s.setByte a b).memWf :=
  wfFrom_write _ h (Nat.zero_le a) ha b

theorem memWf_setBytes {s : State} (h : s.memWf) {a : Nat} {bs : List Byte} (ha : a + bs.length ≤ 4096) :
    (s.setBytes a bs).memWf := by
  induction bs generalizing s a with
  | nil => exact h
  | cons b bs ih =>
    simp only [List.length_cons] at ha
    exact ih (memWf_setByte h (by omega) b) (by omega)

/-- Reading after storing several bytes: inside the range the stored byte, outside it the old one. -/
theorem byte_setBytes {s : State} (h : s.memWf) {a : Nat} {bs : List Byte} (ha : a + bs.length ≤ 4096) (q : Nat) :
    (s.setBytes a bs).byte q = if hq : a ≤ q ∧ q < a + bs.length then bs[q - a]'(by omega) else s.byte q := by
  induction bs generalizing s a with
  | nil => simp [State.setBytes]
  | cons b bs ih =>
    simp only [List.length_cons] at ha
    rw [State.setBytes, ih (memWf_setByte h (by omega) b) (by omega), byte_setByte h]
    by_cases h1 : a + 1 ≤ q ∧ q < a + 1 + bs.length
    · have h2 : a ≤ q ∧ q < a + (b :: bs).length := by simp; omega
      rw [dif_pos h1, dif_pos h2]
      have h3 : q - a = (q - (a + 1)) + 1 := by omega
      simp only [h3, List.getElem_cons_succ]
    · rw [dif_neg h1]
      by_cases h2 : q = a
      · have h3 : a ≤ q ∧ q < a + (b :: bs).length := by simp; omega
        rw [dif_pos h3]
        simp [h2]
      · have h3 : ¬(a ≤ q ∧ q < a + (b :: bs).length) := by simp; omega
        rw [dif_neg h3, if_neg h2]

/-! Reading several bytes. -/

@[simp] theorem length_bytes (s : State) (a n : Nat) : (s.bytes a n).length = n := by
  induction n generalizing a with
  | zero => rfl
  | succ n ih => simp [State.bytes, ih]

theorem getElem_bytes (s : State) (a n k : Nat) (hk : k < (s.bytes a n).length) : (s.bytes a n)[k] = s.byte (a + k) := by
  induction n generalizing a k with
  | zero => simp [State.bytes] at hk
  | succ n ih =>
    cases k with
    | zero => simp [State.bytes]
    | succ k =>
      simp only [State.bytes, List.getElem_cons_succ]
      rw [ih]
      congr 1
      omega

theorem bytes_congr {s t : State} (h : ∀ q, t.byte q = s.byte q) (a n : Nat) : t.bytes a n = s.bytes a n := by
  induction n generalizing a with
  | zero => rfl
  | succ n ih => simp [State.bytes, h, ih]

/-! The bounds check and the two access operations. -/

theorem boundsCheck_ok {a len : Nat} (h : len = 0 ∨ a + len ≤ 4096) : boundsCheck a len = .ok () := by
  unfold boundsCheck
  rw [if_neg (by omega)]

theorem boundsCheck_error {a len : Nat} (h1 : len ≥ 1) (h2 : a + len > 4096) :
    boundsCheck a len = .error (.memoryOutOfBounds (max a 4096)) := by
  unfold boundsCheck
  rw [if_pos (by omega)]

theorem memRead_ok {s : State} {a n : Nat} (h : n = 0 ∨ a + n ≤ 4096) : s.memRead a n = .ok (s.bytes a n) := by
  simp [State.memRead, boundsCheck_ok h]

theorem memRead_error {s : State} {a n : Nat} (h1 : n ≥ 1) (h2 : a + n > 4096) :
    s.memRead a n = .error (.memoryOutOfBounds (max a 4096)) := by
  simp [State.memRead, boundsCheck_error h1 h2]

theorem memWrite_ok {s : State} {a : Nat} {bs : List Byte} (h : bs.length = 0 ∨ a + bs.length ≤ 4096) :
    s.memWrite a bs = .ok (s.setBytes a bs) := by
  simp [State.memWrite, boundsCheck_ok h]

theorem memWrite_error {s : State} {a : Nat} {bs : List Byte} (h1 : bs.length ≥ 1) (h2 : a + bs.length > 4096) :
    s.memWrite a bs = .error (.memoryOutOfBounds (max a 4096)) := by
  simp [State.memWrite, boundsCheck_error h1 h2]

@[simp] theorem length_decimalDigits (b : Byte) : (decimalDigits b).length = 3 := rfl

@[simp] theorem length_regsUpTo (s : State) (x : Reg) : (s.regsUpTo x).length = x.val + 1 := by
  simp [State.regsUpTo]

theorem getElem_regsUpTo (s : State) (x : Reg) (k : Nat) (hk : k < (s.regsUpTo x).length) :
    (s.regsUpTo x)[k] = s.reg ⟨k, by simp at hk; omega⟩ := by
  simp [State.regsUpTo, State.reg, Vector.get_eq_getElem]

end Sys2Proof.Machine
end

