-- ==== Sys2Proof/Laws/Decode.lean ====
section
/-! SUPPORT. The fields of a word put together by a format, and a word put together from its fields. -/

namespace Sys2Proof

section Formats

variable (op : BitVec 4) (x y : Reg) (n : BitVec 4) (nn : Byte) (nnn : Addr)

@[simp] theorem op_formatA : (fieldsOf (formatA op nnn)).op = op := by
  dsimp only [fieldsOf, formatA]
  rw [BitVec.extractLsb'_append_eq_of_le (by omega)]
  exact BitVec.extractLsb'_eq_self

@[simp] theorem nnn_formatA : (fieldsOf (formatA op nnn)).nnn = nnn := by
  dsimp only [fieldsOf, formatA]
  rw [BitVec.extractLsb'_append_eq_of_add_le (by omega)]
  exact BitVec.extractLsb'_eq_self

@[simp] theorem op_formatXB : (fieldsOf (formatXB op x nn)).op = op := by
  dsimp only [fieldsOf, formatXB]
  rw [BitVec.extractLsb'_append_eq_of_le (by omega), BitVec.extractLsb'_append_eq_of_le (by omega)]
  exact BitVec.extractLsb'_eq_self

@[simp] theorem x_formatXB : (fieldsOf (formatXB op x nn)).x = BitVec.ofFin (w := 4) x := by
  dsimp only [fieldsOf, formatXB]
  rw [BitVec.extractLsb'_append_eq_of_le (by omega), BitVec.extractLsb'_append_eq_of_add_le (by omega)]
  exact BitVec.extractLsb'_eq_self

@[simp] theorem nn_formatXB : (fieldsOf (formatXB op x nn)).nn = nn := by
  dsimp only [fieldsOf, formatXB]
  rw [BitVec.extractLsb'_append_eq_of_add_le (by omega)]
  exact BitVec.extractLsb'_eq_self

@[simp] theorem op_formatXYN : (fieldsOf (formatXYN op x y n)).op = op := by
  dsimp only [fieldsOf, formatXYN]
  rw [BitVec.extractLsb'_append_eq_of_le (by omega), BitVec.extractLsb'_append_eq_of_le (by omega), BitVec.extractLsb'_append_eq_of_le (by omega)]
  exact BitVec.extractLsb'_eq_self

@[simp] theorem x_formatXYN : (fieldsOf (formatXYN op x y n)).x = BitVec.ofFin (w := 4) x := by
  dsimp only [fieldsOf, formatXYN]
  rw [BitVec.extractLsb'_append_eq_of_le (by omega), BitVec.extractLsb'_append_eq_of_le (by omega), BitVec.extractLsb'_append_eq_of_add_le (by omega)]
  exact BitVec.extractLsb'_eq_self

@[simp] theorem y_formatXYN : (fieldsOf (formatXYN op x y n)).y = BitVec.ofFin (w := 4) y := by
  dsimp only [fieldsOf, formatXYN]
  rw [BitVec.extractLsb'_append_eq_of_le (by omega), BitVec.extractLsb'_append_eq_of_add_le (by omega)]
  exact BitVec.extractLsb'_eq_self

@[simp] theorem n_formatXYN : (fieldsOf (formatXYN op x y n)).n = n := by
  dsimp only [fieldsOf, formatXYN]
  rw [BitVec.extractLsb'_append_eq_of_add_le (by omega)]
  exact BitVec.extractLsb'_eq_self

end Formats

/-! A word from its fields. -/

theorem formatXYN_fields (w : Word) :
    formatXYN (fieldsOf w).op (fieldsOf w).x.toFin (fieldsOf w).y.toFin (fieldsOf w).n = w := by
  apply BitVec.eq_of_toNat_eq
  simp only [formatXYN, fieldsOf, BitVec.toNat_append, BitVec.extractLsb'_toNat]
  have := w.isLt
  simp only [BitVec.toNat_ofFin, BitVec.val_toFin, BitVec.extractLsb'_toNat]
  rw [← Nat.shiftLeft_add_eq_or_of_lt (by omega), ← Nat.shiftLeft_add_eq_or_of_lt (by omega),
    ← Nat.shiftLeft_add_eq_or_of_lt (by omega)]
  simp only [Nat.shiftLeft_eq, Nat.shiftRight_eq_div_pow]
  omega

theorem formatXB_fields (w : Word) : formatXB (fieldsOf w).op (fieldsOf w).x.toFin (fieldsOf w).nn = w := by
  apply BitVec.eq_of_toNat_eq
  simp only [formatXB, fieldsOf, BitVec.toNat_append, BitVec.extractLsb'_toNat]
  have := w.isLt
  simp only [BitVec.toNat_ofFin, BitVec.val_toFin, BitVec.extractLsb'_toNat]
  rw [← Nat.shiftLeft_add_eq_or_of_lt (by omega), ← Nat.shiftLeft_add_eq_or_of_lt (by omega)]
  simp only [Nat.shiftLeft_eq, Nat.shiftRight_eq_div_pow]
  omega

theorem formatA_fields (w : Word) : formatA (fieldsOf w).op (fieldsOf w).nnn = w := by
  apply BitVec.eq_of_toNat_eq
  simp only [formatA, fieldsOf, BitVec.toNat_append, BitVec.extractLsb'_toNat]
  have := w.isLt
  rw [← Nat.shiftLeft_add_eq_or_of_lt (by omega)]
  simp only [Nat.shiftLeft_eq, Nat.shiftRight_eq_div_pow]
  omega

/-- Words with equal nibbles are equal. -/
theorem word_ext {v w : Word} (hop : (fieldsOf v).op = (fieldsOf w).op) (hx : (fieldsOf v).x = (fieldsOf w).x)
    (hy : (fieldsOf v).y = (fieldsOf w).y) (hn : (fieldsOf v).n = (fieldsOf w).n) : v = w := by
  rw [← formatXYN_fields v, ← formatXYN_fields w, hop, hx, hy, hn]

/-! A mask acts nibble by nibble. -/

@[simp] theorem op_and (w m : Word) : (fieldsOf (w &&& m)).op = (fieldsOf w).op &&& (fieldsOf m).op :=
  BitVec.extractLsb'_and

@[simp] theorem x_and (w m : Word) : (fieldsOf (w &&& m)).x = (fieldsOf w).x &&& (fieldsOf m).x :=
  BitVec.extractLsb'_and

@[simp] theorem y_and (w m : Word) : (fieldsOf (w &&& m)).y = (fieldsOf w).y &&& (fieldsOf m).y :=
  BitVec.extractLsb'_and

@[simp] theorem n_and (w m : Word) : (fieldsOf (w &&& m)).n = (fieldsOf w).n &&& (fieldsOf m).n :=
  BitVec.extractLsb'_and

theorem nn_eq (w : Word) : (fieldsOf w).nn = (fieldsOf w).y ++ (fieldsOf w).n := by
  apply BitVec.eq_of_toNat_eq
  simp only [fieldsOf, BitVec.toNat_append, BitVec.extractLsb'_toNat]
  rw [← Nat.shiftLeft_add_eq_or_of_lt (by omega)]
  simp only [Nat.shiftLeft_eq, Nat.shiftRight_eq_div_pow]
  omega

theorem nnn_eq (w : Word) : (fieldsOf w).nnn = (fieldsOf w).x ++ (fieldsOf w).y ++ (fieldsOf w).n := by
  apply BitVec.eq_of_toNat_eq
  simp only [fieldsOf, BitVec.toNat_append, BitVec.extractLsb'_toNat]
  rw [← Nat.shiftLeft_add_eq_or_of_lt (by omega), ← Nat.shiftLeft_add_eq_or_of_lt (by omega)]
  simp only [Nat.shiftLeft_eq, Nat.shiftRight_eq_div_pow]
  omega

/-! Matching a mask and pattern of 30_encoding.md R76 is a condition on the family and the discriminant. -/

theorem and_ones (a : BitVec 4) : a &&& 0xF#4 = a := by
  revert a
  decide

theorem and_none (a : BitVec 4) : a &&& 0x0#4 = 0x0#4 := by
  revert a
  decide

theorem mask_F000 (w v : Word) (hv : v &&& 0xF000 = v) : w &&& 0xF000 = v ↔ (fieldsOf w).op = (fieldsOf v).op := by
  have ho : (fieldsOf 0xF000).op = 0xF#4 := by decide
  have hx : (fieldsOf 0xF000).x = 0x0#4 := by decide
  have hy : (fieldsOf 0xF000).y = 0x0#4 := by decide
  have hn : (fieldsOf 0xF000).n = 0x0#4 := by decide
  constructor
  · intro h
    rw [← h, op_and, ho, and_ones]
  · intro h
    rw [← hv]
    exact word_ext (by rw [op_and, op_and, h]) (by rw [x_and, x_and, hx, and_none, and_none])
      (by rw [y_and, y_and, hy, and_none, and_none]) (by rw [n_and, n_and, hn, and_none, and_none])

theorem mask_F00F (w v : Word) (hv : v &&& 0xF00F = v) :
    w &&& 0xF00F = v ↔ (fieldsOf w).op = (fieldsOf v).op ∧ (fieldsOf w).n = (fieldsOf v).n := by
  have ho : (fieldsOf 0xF00F).op = 0xF#4 := by decide
  have hx : (fieldsOf 0xF00F).x = 0x0#4 := by decide
  have hy : (fieldsOf 0xF00F).y = 0x0#4 := by decide
  have hn : (fieldsOf 0xF00F).n = 0xF#4 := by decide
  constructor
  · intro h
    rw [← h, op_and, n_and, ho, hn, and_ones, and_ones]
    exact ⟨rfl, rfl⟩
  · rintro ⟨h, h'⟩
    rw [← hv]
    exact word_ext (by rw [op_and, op_and, h]) (by rw [x_and, x_and, hx, and_none, and_none])
      (by rw [y_and, y_and, hy, and_none, and_none]) (by rw [n_and, n_and, h'])

theorem mask_F0FF (w v : Word) (hv : v &&& 0xF0FF = v) :
    w &&& 0xF0FF = v ↔ (fieldsOf w).op = (fieldsOf v).op ∧ (fieldsOf w).nn = (fieldsOf v).nn := by
  have ho : (fieldsOf 0xF0FF).op = 0xF#4 := by decide
  have hx : (fieldsOf 0xF0FF).x = 0x0#4 := by decide
  have hy : (fieldsOf 0xF0FF).y = 0xF#4 := by decide
  have hn : (fieldsOf 0xF0FF).n = 0xF#4 := by decide
  constructor
  · intro h
    rw [nn_eq, nn_eq, ← h, op_and, y_and, n_and, ho, hy, hn, and_ones, and_ones, and_ones]
    exact ⟨rfl, rfl⟩
  · rintro ⟨h, hnn⟩
    have h1 : (fieldsOf w).y = (fieldsOf v).y := by
      have := congrArg (BitVec.extractLsb' 4 4) hnn
      rw [nn_eq, nn_eq, BitVec.extractLsb'_append_eq_left, BitVec.extractLsb'_append_eq_left] at this
      exact this
    have h2 : (fieldsOf w).n = (fieldsOf v).n := by
      have := congrArg (BitVec.extractLsb' 0 4) hnn
      rw [nn_eq, nn_eq, BitVec.extractLsb'_append_eq_of_add_le (by omega),
        BitVec.extractLsb'_append_eq_of_add_le (by omega), BitVec.extractLsb'_eq_self, BitVec.extractLsb'_eq_self] at this
      exact this
    rw [← hv]
    exact word_ext (by rw [op_and, op_and, h]) (by rw [x_and, x_and, hx, and_none, and_none])
      (by rw [y_and, y_and, h1]) (by rw [n_and, n_and, h2])

/-- A word's two bytes make the word (20_memory.md R51). -/
@[simp] theorem wordOfBytes_high_low (w : Word) : wordOfBytes (highByte w) (lowByte w) = w := by
  apply BitVec.eq_of_toNat_eq
  simp only [wordOfBytes, highByte, lowByte, BitVec.toNat_append, BitVec.extractLsb'_toNat]
  have := w.isLt
  rw [← Nat.shiftLeft_add_eq_or_of_lt (by omega)]
  simp only [Nat.shiftLeft_eq, Nat.shiftRight_eq_div_pow]
  omega

theorem toNat_wordOfBytes (hi lo : Byte) : (wordOfBytes hi lo).toNat = hi.toNat * 256 + lo.toNat := by
  simp only [wordOfBytes, BitVec.toNat_append]
  rw [← Nat.shiftLeft_add_eq_or_of_lt lo.isLt, Nat.shiftLeft_eq]

end Sys2Proof
end

