-- ==== Sys2Proof/Laws/Draw.lean ====
section
/-! SUPPORT. What a draw does to each pixel, and when it reports a collision (43_display.md R161). -/

namespace Sys2Proof.Machine

theorem pixelAt_writePixel (d : Display) (px qx : Fin 64) (py qy : Fin 32) (b : Bool) :
    pixelAt (writePixel d px py b) qx qy = if qx = px ∧ qy = py then b else pixelAt d qx qy := by
  simp only [pixelAt, writePixel, Vector.get_eq_getElem, Vector.getElem_set]
  by_cases hy : py.val = qy.val
  · have hy' : py = qy := Fin.ext hy
    subst hy'
    by_cases hx : px.val = qx.val
    · have hx' : px = qx := Fin.ext hx
      subst hx'
      simp
    · have hx' : ¬qx = px := fun h => hx (by rw [h])
      simp [hx, hx']
  · have hy' : ¬qy = py := fun h => hy (by rw [h])
    simp [hy, hy']

@[simp] theorem pixelAt_clearDisplay (px : Fin 64) (py : Fin 32) : pixelAt clearDisplay px py = false := by
  simp [pixelAt, clearDisplay, Vector.get_eq_getElem]

/-- The bit a draw of `rows` from column `x0`, row `y0` brings to column `qx`, row `qy`; false where it brings none. -/
def spriteAt (x0 y0 : Nat) (rows : List Byte) (qx qy : Nat) : Bool :=
  decide (x0 ≤ qx ∧ qx < x0 + 8 ∧ y0 ≤ qy ∧ qy < y0 + rows.length) && spriteBit (rows.getD (qy - y0) 0) (qx - x0)

/-- The first `k` columns of one row. -/
def rowAt (x0 py : Nat) (row : Byte) (k qx qy : Nat) : Bool :=
  decide (qy = py ∧ x0 ≤ qx ∧ qx < x0 + k) && spriteBit row (qx - x0)

theorem plot_pixel (X Y : Nat) (b : Bool) (acc : Display × Bool) (qx : Fin 64) (qy : Fin 32) :
    pixelAt (plot X Y b acc).1 qx qy = xor (pixelAt acc.1 qx qy) (decide (qx.val = X ∧ qy.val = Y) && b) := by
  unfold plot
  split
  · next h =>
    simp only [pixelAt_writePixel]
    by_cases hq : qx.val = X ∧ qy.val = Y
    · obtain ⟨rfl, rfl⟩ := hq
      simp
    · have h1 : ¬(qx = ⟨X, by omega⟩ ∧ qy = ⟨Y, by omega⟩) := by
        rintro ⟨h1, h2⟩
        exact hq ⟨by rw [h1], by rw [h2]⟩
      rw [if_neg h1]
      simp [hq]
  · next h =>
    have hq : ¬(qx.val = X ∧ qy.val = Y) := by omega
    simp [hq]

theorem plot_hit (X Y : Nat) (b : Bool) (acc : Display × Bool) :
    (plot X Y b acc).2 = true ↔
      acc.2 = true ∨ ∃ (qx : Fin 64) (qy : Fin 32), (qx.val = X ∧ qy.val = Y) ∧ b = true ∧ pixelAt acc.1 qx qy = true := by
  unfold plot
  split
  · next h =>
    simp only [Bool.or_eq_true, Bool.and_eq_true]
    refine or_congr_right ⟨fun hb => ⟨_, _, ⟨rfl, rfl⟩, hb⟩, ?_⟩
    rintro ⟨qx, qy, ⟨rfl, rfl⟩, hb⟩
    exact hb
  · next h =>
    constructor
    · exact Or.inl
    · rintro (hacc | ⟨qx, qy, hq, -⟩)
      · exact hacc
      · omega

theorem drawCols_pixel (x0 py : Nat) (row : Byte) (acc : Display × Bool) (k : Nat) (qx : Fin 64) (qy : Fin 32) :
    pixelAt ((List.range k).foldl (fun acc c => plot (x0 + c) py (spriteBit row c) acc) acc).1 qx qy =
      xor (pixelAt acc.1 qx qy) (rowAt x0 py row k qx qy) := by
  induction k with
  | zero =>
    have h : ¬(qy.val = py ∧ x0 ≤ qx.val ∧ qx.val < x0 + 0) := by omega
    simp only [List.range_zero, List.foldl_nil, rowAt, decide_eq_false h, Bool.false_and, Bool.xor_false]
  | succ k ih =>
    rw [List.range_succ, List.foldl_append, List.foldl_cons, List.foldl_nil, plot_pixel, ih, Bool.xor_assoc]
    congr 1
    unfold rowAt
    by_cases h : qx.val = x0 + k ∧ qy.val = py
    · have h1 : ¬(qy.val = py ∧ x0 ≤ qx.val ∧ qx.val < x0 + k) := by omega
      have h2 : qy.val = py ∧ x0 ≤ qx.val ∧ qx.val < x0 + (k + 1) := by omega
      have h3 : qx.val - x0 = k := by omega
      rw [decide_eq_false h1, decide_eq_true h2, decide_eq_true h, h3]
      simp
    · have h1 : decide (qy.val = py ∧ x0 ≤ qx.val ∧ qx.val < x0 + k) =
          decide (qy.val = py ∧ x0 ≤ qx.val ∧ qx.val < x0 + (k + 1)) := by
        rw [decide_eq_decide]
        omega
      rw [decide_eq_false h, h1]
      simp

theorem drawCols_hit (x0 py : Nat) (row : Byte) (acc : Display × Bool) (k : Nat) :
    ((List.range k).foldl (fun acc c => plot (x0 + c) py (spriteBit row c) acc) acc).2 = true ↔
      acc.2 = true ∨ ∃ (qx : Fin 64) (qy : Fin 32), rowAt x0 py row k qx qy = true ∧ pixelAt acc.1 qx qy = true := by
  induction k with
  | zero =>
    simp only [List.range_zero, List.foldl_nil, rowAt, Bool.and_eq_true, decide_eq_true_eq]
    constructor
    · exact Or.inl
    · rintro (h | ⟨qx, qy, h, -⟩)
      · exact h
      · omega
  | succ k ih =>
    rw [List.range_succ, List.foldl_append, List.foldl_cons, List.foldl_nil, plot_hit, ih, or_assoc]
    refine or_congr_right ?_
    simp only [drawCols_pixel]
    constructor
    · rintro (⟨qx, qy, h1, h2⟩ | ⟨qx, qy, ⟨hx, hy⟩, hb, hp⟩)
      · refine ⟨qx, qy, ?_, h2⟩
        simp only [rowAt, Bool.and_eq_true, decide_eq_true_eq] at h1 ⊢
        exact ⟨by omega, h1.2⟩
      · have h1 : rowAt x0 py row k qx qy = false := by
          have : ¬(qy.val = py ∧ x0 ≤ qx.val ∧ qx.val < x0 + k) := by omega
          simp only [rowAt, decide_eq_false this, Bool.false_and]
        rw [h1, Bool.xor_false] at hp
        refine ⟨qx, qy, ?_, hp⟩
        have h3 : qx.val - x0 = k := by omega
        simp only [rowAt, Bool.and_eq_true, decide_eq_true_eq, h3]
        exact ⟨by omega, hb⟩
    · rintro ⟨qx, qy, h1, h2⟩
      simp only [rowAt, Bool.and_eq_true, decide_eq_true_eq] at h1
      by_cases h : qx.val = x0 + k
      · right
        have h3 : qx.val - x0 = k := by omega
        refine ⟨qx, qy, ⟨h, h1.1.1⟩, by rw [← h3]; exact h1.2, ?_⟩
        have h4 : rowAt x0 py row k qx qy = false := by
          have : ¬(qy.val = py ∧ x0 ≤ qx.val ∧ qx.val < x0 + k) := by omega
          simp only [rowAt, decide_eq_false this, Bool.false_and]
        rw [h4, Bool.xor_false]
        exact h2
      · left
        refine ⟨qx, qy, ?_, h2⟩
        simp only [rowAt, Bool.and_eq_true, decide_eq_true_eq]
        exact ⟨by omega, h1.2⟩

theorem spriteAt_nil (x0 y0 qx qy : Nat) : spriteAt x0 y0 [] qx qy = false := by
  have : ¬(x0 ≤ qx ∧ qx < x0 + 8 ∧ y0 ≤ qy ∧ qy < y0 + 0) := by omega
  simp only [spriteAt, List.length_nil, decide_eq_false this, Bool.false_and]

/-- A sprite's first row, or the rows after it. -/
theorem spriteAt_cons (x0 y0 : Nat) (row : Byte) (rows : List Byte) (qx qy : Nat) :
    spriteAt x0 y0 (row :: rows) qx qy = if qy = y0 then rowAt x0 y0 row 8 qx qy else spriteAt x0 (y0 + 1) rows qx qy := by
  unfold spriteAt rowAt
  split
  · next h =>
    subst h
    have h1 : decide (x0 ≤ qx ∧ qx < x0 + 8 ∧ qy ≤ qy ∧ qy < qy + (row :: rows).length) =
        decide (qy = qy ∧ x0 ≤ qx ∧ qx < x0 + 8) := by
      rw [decide_eq_decide]
      simp
    rw [h1]
    simp
  · next h =>
    have h1 : decide (x0 ≤ qx ∧ qx < x0 + 8 ∧ y0 ≤ qy ∧ qy < y0 + (row :: rows).length) =
        decide (x0 ≤ qx ∧ qx < x0 + 8 ∧ y0 + 1 ≤ qy ∧ qy < y0 + 1 + rows.length) := by
      rw [decide_eq_decide, List.length_cons]
      omega
    rw [h1]
    by_cases hq : y0 + 1 ≤ qy
    · have h2 : qy - y0 = (qy - (y0 + 1)) + 1 := by omega
      rw [h2, List.getD_cons_succ]
    · have h2 : ¬(x0 ≤ qx ∧ qx < x0 + 8 ∧ y0 + 1 ≤ qy ∧ qy < y0 + 1 + rows.length) := by omega
      rw [decide_eq_false h2, Bool.false_and, Bool.false_and]

theorem rowAt_off {x0 py : Nat} {row : Byte} {k qx qy : Nat} (h : qy ≠ py) : rowAt x0 py row k qx qy = false := by
  have : ¬(qy = py ∧ x0 ≤ qx ∧ qx < x0 + k) := fun hh => h hh.1
  simp only [rowAt, decide_eq_false this, Bool.false_and]

theorem spriteAt_above {x0 y0 : Nat} {rows : List Byte} {qx qy : Nat} (h : qy < y0) : spriteAt x0 y0 rows qx qy = false := by
  have : ¬(x0 ≤ qx ∧ qx < x0 + 8 ∧ y0 ≤ qy ∧ qy < y0 + rows.length) := by omega
  simp only [spriteAt, decide_eq_false this, Bool.false_and]

/-- Every pixel after a draw is the pixel before it XOR the sprite's bit there. -/
theorem drawRows_pixel (x0 py : Nat) (rows : List Byte) (acc : Display × Bool) (qx : Fin 64) (qy : Fin 32) :
    pixelAt (drawRows x0 py rows acc).1 qx qy = xor (pixelAt acc.1 qx qy) (spriteAt x0 py rows qx qy) := by
  induction rows generalizing py acc with
  | nil => simp [drawRows, spriteAt_nil]
  | cons row rows ih =>
    rw [drawRows, ih, drawRow, drawCols_pixel, spriteAt_cons, Bool.xor_assoc]
    congr 1
    split
    · next h => rw [spriteAt_above (by omega), Bool.xor_false]
    · next h => rw [rowAt_off h, Bool.false_xor]

/-- A draw hits when a sprite bit meets a pixel that was set before it. -/
theorem drawRows_hit (x0 py : Nat) (rows : List Byte) (acc : Display × Bool) :
    (drawRows x0 py rows acc).2 = true ↔
      acc.2 = true ∨ ∃ (qx : Fin 64) (qy : Fin 32), spriteAt x0 py rows qx qy = true ∧ pixelAt acc.1 qx qy = true := by
  induction rows generalizing py acc with
  | nil => simp [drawRows, spriteAt_nil]
  | cons row rows ih =>
    rw [drawRows, ih]
    simp only [drawRow, drawCols_hit, drawCols_pixel, or_assoc]
    refine or_congr_right ?_
    constructor
    · rintro (⟨qx, qy, h1, h2⟩ | ⟨qx, qy, h1, h2⟩)
      · refine ⟨qx, qy, ?_, h2⟩
        have h3 : qy.val = py := by
          simp only [rowAt, Bool.and_eq_true, decide_eq_true_eq] at h1
          exact h1.1.1
        rw [spriteAt_cons, if_pos h3]
        exact h1
      · have h3 : ¬qy.val = py := by
          intro h
          rw [spriteAt_above (by omega)] at h1
          exact Bool.noConfusion h1
        rw [rowAt_off h3, Bool.xor_false] at h2
        refine ⟨qx, qy, ?_, h2⟩
        rw [spriteAt_cons, if_neg h3]
        exact h1
    · rintro ⟨qx, qy, h1, h2⟩
      rw [spriteAt_cons] at h1
      split at h1
      · exact Or.inl ⟨qx, qy, h1, h2⟩
      · next h3 =>
        refine Or.inr ⟨qx, qy, h1, ?_⟩
        rw [rowAt_off h3, Bool.xor_false]
        exact h2

end Sys2Proof.Machine
end

