-- ==== Sys2Proof/Laws/PerInstr.lean ====
section
/-! SUPPORT. Families of statements about every instruction as syntax, one lemma a constructor (LAWS.json). -/

namespace Sys2Proof.Laws.EncodesCanonically

/-- The encoder emits canonical words only: every don't-care bit is zero (30_encoding.md R79). -/
def Statement (i : Instr) : Prop :=
  (fieldsOf (encode i)).canonical = true

theorem cls : Statement (.cls) := by simp [Statement, encode, Fields.canonical]
theorem ret : Statement (.ret) := by simp [Statement, encode, Fields.canonical]
theorem jp (nnn : Addr) : Statement (.jp nnn) := by simp [Statement, encode, Fields.canonical]
theorem call (nnn : Addr) : Statement (.call nnn) := by simp [Statement, encode, Fields.canonical]
theorem seImm (x : Reg) (nn : Byte) : Statement (.seImm x nn) := by simp [Statement, encode, Fields.canonical]
theorem sneImm (x : Reg) (nn : Byte) : Statement (.sneImm x nn) := by simp [Statement, encode, Fields.canonical]
theorem seReg (x y : Reg) : Statement (.seReg x y) := by simp [Statement, encode, Fields.canonical]
theorem ldImm (x : Reg) (nn : Byte) : Statement (.ldImm x nn) := by simp [Statement, encode, Fields.canonical]
theorem addImm (x : Reg) (nn : Byte) : Statement (.addImm x nn) := by simp [Statement, encode, Fields.canonical]
theorem ldReg (x y : Reg) : Statement (.ldReg x y) := by simp [Statement, encode, Fields.canonical]
theorem orReg (x y : Reg) : Statement (.orReg x y) := by simp [Statement, encode, Fields.canonical]
theorem andReg (x y : Reg) : Statement (.andReg x y) := by simp [Statement, encode, Fields.canonical]
theorem xorReg (x y : Reg) : Statement (.xorReg x y) := by simp [Statement, encode, Fields.canonical]
theorem addReg (x y : Reg) : Statement (.addReg x y) := by simp [Statement, encode, Fields.canonical]
theorem sub (x y : Reg) : Statement (.sub x y) := by simp [Statement, encode, Fields.canonical]
theorem shr (x y : Reg) : Statement (.shr x y) := by simp [Statement, encode, Fields.canonical]
theorem subn (x y : Reg) : Statement (.subn x y) := by simp [Statement, encode, Fields.canonical]
theorem shl (x y : Reg) : Statement (.shl x y) := by simp [Statement, encode, Fields.canonical]
theorem sneReg (x y : Reg) : Statement (.sneReg x y) := by simp [Statement, encode, Fields.canonical]
theorem ldI (nnn : Addr) : Statement (.ldI nnn) := by simp [Statement, encode, Fields.canonical]
theorem jpV0 (nnn : Addr) : Statement (.jpV0 nnn) := by simp [Statement, encode, Fields.canonical]
theorem rnd (x : Reg) (nn : Byte) : Statement (.rnd x nn) := by simp [Statement, encode, Fields.canonical]
theorem drw (x y : Reg) (n : Fin 16) : Statement (.drw x y n) := by simp [Statement, encode, Fields.canonical]
theorem skp (x : Reg) : Statement (.skp x) := by simp [Statement, encode, Fields.canonical]
theorem sknp (x : Reg) : Statement (.sknp x) := by simp [Statement, encode, Fields.canonical]
theorem ldVxDT (x : Reg) : Statement (.ldVxDT x) := by simp [Statement, encode, Fields.canonical]
theorem ldVxK (x : Reg) : Statement (.ldVxK x) := by simp [Statement, encode, Fields.canonical]
theorem ldDTVx (x : Reg) : Statement (.ldDTVx x) := by simp [Statement, encode, Fields.canonical]
theorem ldSTVx (x : Reg) : Statement (.ldSTVx x) := by simp [Statement, encode, Fields.canonical]
theorem addI (x : Reg) : Statement (.addI x) := by simp [Statement, encode, Fields.canonical]
theorem ldF (x : Reg) : Statement (.ldF x) := by simp [Statement, encode, Fields.canonical]
theorem ldB (x : Reg) : Statement (.ldB x) := by simp [Statement, encode, Fields.canonical]
theorem ldMemVx (x : Reg) : Statement (.ldMemVx x) := by simp [Statement, encode, Fields.canonical]
theorem ldVxMem (x : Reg) : Statement (.ldVxMem x) := by simp [Statement, encode, Fields.canonical]

end Sys2Proof.Laws.EncodesCanonically
end

