-- ==== Sys2Proof/Laws/Step.lean ====
section
/-! SUPPORT. What each shared operation can answer, said once: the stack, the accesses to memory, the fetch, the step. -/

namespace Sys2Proof.Machine

variable {s t : State}

/-! The call stack. -/

theorem push_ok (a : Word) (h : s.sp.val < 16) :
    s.push a = .ok { s with stack := s.stack.set s.sp.val a h, sp := ⟨s.sp.val + 1, by omega⟩ } := by
  simp [State.push, h]

theorem push_error (a : Word) (h : s.sp.val = 16) : s.push a = .error .stackOverflow := by
  simp [State.push, h]

theorem popPc_ok (h : 0 < s.sp.val) :
    s.popPc = .ok { s with pc := s.stack.get ⟨s.sp.val - 1, by omega⟩, sp := ⟨s.sp.val - 1, by omega⟩ } := by
  simp [State.popPc, h]

theorem popPc_error (h : s.sp.val = 0) : s.popPc = .error .stackUnderflow := by
  simp [State.popPc, h]

/-! Accesses to memory: in range they succeed, else they fail with the payload of 20_memory.md R57. -/

theorem memWrite_cases (s : State) (a : Nat) (bs : List Byte) :
    ((bs.length = 0 ∨ a + bs.length ≤ 4096) ∧ s.memWrite a bs = .ok (s.setBytes a bs)) ∨
      (bs.length ≥ 1 ∧ a + bs.length > 4096 ∧ s.memWrite a bs = .error (.memoryOutOfBounds (max a 4096))) := by
  by_cases h : bs.length = 0 ∨ a + bs.length ≤ 4096
  · exact .inl ⟨h, memWrite_ok h⟩
  · exact .inr ⟨by omega, by omega, memWrite_error (by omega) (by omega)⟩

theorem memRead_cases (s : State) (a n : Nat) :
    ((n = 0 ∨ a + n ≤ 4096) ∧ s.memRead a n = .ok (s.bytes a n)) ∨
      (n ≥ 1 ∧ a + n > 4096 ∧ s.memRead a n = .error (.memoryOutOfBounds (max a 4096))) := by
  by_cases h : n = 0 ∨ a + n ≤ 4096
  · exact .inl ⟨h, memRead_ok h⟩
  · exact .inr ⟨by omega, by omega, memRead_error (by omega) (by omega)⟩

/-! The keypad. -/

theorem lowestKey_none (h : ∀ k, s.key.get k = false) : s.lowestKey = none := by
  simp [State.lowestKey, h]

theorem lowestKey_some {k : Fin 16} (hk : s.key.get k = true) (hmin : ∀ j < k, s.key.get j = false) :
    s.lowestKey = some k.val := by
  unfold State.lowestKey
  rw [List.find?_range_eq_some]
  refine ⟨?_, ?_, ?_⟩
  · have : Fin.ofNat 16 k.val = k := Fin.ext (Nat.mod_eq_of_lt k.isLt)
    rw [this]
    exact hk
  · simp
  · intro j hj
    have hj' : Fin.ofNat 16 j < k := by
      rw [Fin.lt_def]
      show j % 16 < k.val
      omega
    rw [hmin _ hj']
    rfl

theorem exists_lowest_key (h : ∃ k, s.key.get k = true) : ∃ k, s.key.get k = true ∧ ∀ j < k, s.key.get j = false := by
  obtain ⟨k, hk⟩ := h
  induction hn : k.val using Nat.strong_induction_on generalizing k with
  | _ n ih =>
    by_cases hj : ∃ j < k, s.key.get j = true
    · obtain ⟨j, hjk, hj⟩ := hj
      exact ih j.val (by rw [← hn]; exact hjk) j hj rfl
    · exact ⟨k, hk, fun j hjk => by simpa using fun h => hj ⟨j, hjk, h⟩⟩

/-- What FX0A sees: no key, or a lowest one (44_keypad_timers.md R172). -/
theorem lowestKey_cases (s : State) :
    ((∀ k, s.key.get k = false) ∧ s.lowestKey = none) ∨
      ∃ k, s.key.get k = true ∧ (∀ j < k, s.key.get j = false) ∧ s.lowestKey = some k.val := by
  by_cases h : ∃ k, s.key.get k = true
  · obtain ⟨k, hk, hmin⟩ := exists_lowest_key h
    exact .inr ⟨k, hk, hmin, lowestKey_some hk hmin⟩
  · have h' : ∀ k, s.key.get k = false := fun k => by simpa using fun hk => h ⟨k, hk⟩
    exact .inl ⟨h', lowestKey_none h'⟩

/-! Fetch and step. -/

theorem fetch_ok (h : s.pc.toNat ≤ 4094) : s.fetch = .ok (s.wordAt s.pc.toNat, s.setPc (s.pc + 2)) := by
  unfold State.fetch
  rw [if_neg (by omega)]

theorem fetch_error (h : 4095 ≤ s.pc.toNat) : s.fetch = .error (.memoryOutOfBounds (max s.pc.toNat 4096)) := by
  unfold State.fetch
  rw [if_pos h]

/-- The advanced `PC` does not wrap. -/
theorem toNat_pc_add_two (h : s.pc.toNat ≤ 4094) : (s.pc + 2).toNat = s.pc.toNat + 2 := by
  rw [BitVec.toNat_add]
  simp
  omega

/-- Everything a step that answers a next state has done. -/
theorem step_next_cases (h : step s = .next t) :
    s.pc.toNat ≤ 4094 ∧ ∃ i, decodeWord (s.wordAt s.pc.toNat) = .ok i ∧ exec i (s.setPc (s.pc + 2)) = .next t := by
  by_cases hp : s.pc.toNat ≤ 4094
  · refine ⟨hp, ?_⟩
    simp only [step, fetch_ok hp] at h
    split at h
    · next i hi => exact ⟨i, hi, h⟩
    · cases h
  · simp only [step, fetch_error (by omega : 4095 ≤ s.pc.toNat)] at h
    cases h

/-! An operation's answer as an outcome. -/

@[simp] theorem toResult_ok (s : State) : toResult (.ok s) = .next s := rfl

@[simp] theorem toResult_error (f : Fault) : toResult (.error f) = .fault f := rfl

end Sys2Proof.Machine
end

