-- ==== Sys2Proof/Tests/Slice0.lean ====
section
/-! SUPPORT. The model's own tests: the well-formedness smoke tests, words written out from 30_encoding.md R76, one or two
steps an instruction with the expected results of 95_test_vectors.md (the vector's id stands beside each), and a witness
for the hypotheses of each statement. -/

namespace Sys2Proof.Tests

open Machine Claims

/-- An outcome is a next state with a property. -/
def nextAnd (o : Result) (p : State → Bool) : Bool :=
  match o with
  | .next t => p t
  | _ => false

/-- An outcome is this fault. -/
def faultIs (o : Result) (f : Fault) : Bool :=
  match o with
  | .fault g => g == f
  | _ => false

theorem fault_of_check {o : Result} {f : Fault} (h : faultIs o f = true) : o = .fault f := by
  cases o with
  | next t => cases h
  | fault g => simpa [faultIs] using h
  | refused r => cases h

theorem next_of_check {o : Result} {p : State → Bool} (h : nextAnd o p = true) : ∃ t, o = .next t ∧ p t = true := by
  cases o with
  | next t => exact ⟨t, rfl, h⟩
  | fault f => cases h
  | refused r => cases h

/-- The state of the vectors: after reset, some changes, and the word where the next step fetches it. -/
def at200 (f : State → State) (w : Nat) : State :=
  (f State.reset).withFetchWord 16 w

/-- The registers `V[0]` and `V[1]`. -/
def v01 (a b : Byte) (s : State) : State :=
  (s.setReg 0 a).setReg 1 b

/-- A call stack with `n` entries, all of them `a`. -/
def stacked (n : Fin 17) (a : Word) (s : State) : State :=
  { s with sp := n, stack := Vector.replicate 16 a }

/-! ## Well-formedness -/

theorem test_byte_consistent_refuses :
    Fields.byteConsistent { op := 6, x := 0xA, y := 0, n := 0xC, nn := 0x0D, nnn := 0xA0C } = false := by decide

theorem test_addr_consistent_refuses :
    Fields.addrConsistent { op := 6, x := 0xA, y := 0, n := 0xC, nn := 0x0C, nnn := 0xB0C } = false := by decide

theorem test_fields_well_formed :
    Fields.wellFormed { op := 6, x := 0xA, y := 0, n := 0xC, nn := 0x0C, nnn := 0xA0C } = true := by decide

theorem test_canonical_refuses_family_0 : (fieldsOf 0x01E0).canonical = false := by decide

theorem test_canonical_refuses_family_5 : (fieldsOf 0x5AB1).canonical = false := by decide

theorem test_canonical_refuses_family_9 : (fieldsOf 0x9ABF).canonical = false := by decide

theorem test_canonical_accepts : (fieldsOf 0x5AB0).canonical = true := by decide

theorem test_rom_fits_refuses : romFits (List.replicate 3585 0xAB) = false := by
  rw [romFits, List.length_replicate]
  decide

/-! ## Decoding: bits written out from 30_encoding.md R76 (op, x, y, n) -/

theorem test_decode_cls : decodeWord 0b0000_0000_1110_0000 = .ok .cls := by decide
theorem test_decode_ret : decodeWord 0b0000_0000_1110_1110 = .ok .ret := by decide
theorem test_decode_jp : decodeWord 0b0001_1010_1011_1100 = .ok (.jp 0xABC) := by decide
theorem test_decode_call : decodeWord 0b0010_0011_0000_0000 = .ok (.call 0x300) := by decide
theorem test_decode_seImm : decodeWord 0b0011_1010_0000_1100 = .ok (.seImm 0xA 0x0C) := by decide
theorem test_decode_sneImm : decodeWord 0b0100_1010_0000_1100 = .ok (.sneImm 0xA 0x0C) := by decide
theorem test_decode_seReg : decodeWord 0b0101_1010_1011_0000 = .ok (.seReg 0xA 0xB) := by decide
theorem test_decode_ldImm : decodeWord 0b0110_1010_0000_1100 = .ok (.ldImm 0xA 0x0C) := by decide
theorem test_decode_addImm : decodeWord 0b0111_0011_0000_0001 = .ok (.addImm 3 0x01) := by decide
theorem test_decode_ldReg : decodeWord 0b1000_0001_0010_0000 = .ok (.ldReg 1 2) := by decide
theorem test_decode_orReg : decodeWord 0b1000_0001_0010_0001 = .ok (.orReg 1 2) := by decide
theorem test_decode_andReg : decodeWord 0b1000_0001_0010_0010 = .ok (.andReg 1 2) := by decide
theorem test_decode_xorReg : decodeWord 0b1000_0001_0010_0011 = .ok (.xorReg 1 2) := by decide
theorem test_decode_addReg : decodeWord 0b1000_0001_0010_0100 = .ok (.addReg 1 2) := by decide
theorem test_decode_sub : decodeWord 0b1000_0001_0010_0101 = .ok (.sub 1 2) := by decide
theorem test_decode_shr : decodeWord 0b1000_0001_0010_0110 = .ok (.shr 1 2) := by decide
theorem test_decode_subn : decodeWord 0b1000_0001_0010_0111 = .ok (.subn 1 2) := by decide
theorem test_decode_shl : decodeWord 0b1000_0001_0010_1110 = .ok (.shl 1 2) := by decide
theorem test_decode_sneReg : decodeWord 0b1001_0001_0010_0000 = .ok (.sneReg 1 2) := by decide
theorem test_decode_ldI : decodeWord 0b1010_1111_1111_1111 = .ok (.ldI 0xFFF) := by decide
theorem test_decode_jpV0 : decodeWord 0b1011_0010_0000_0000 = .ok (.jpV0 0x200) := by decide
theorem test_decode_rnd : decodeWord 0b1100_0001_0000_1111 = .ok (.rnd 1 0x0F) := by decide
theorem test_decode_drw : decodeWord 0b1101_0001_0010_0011 = .ok (.drw 1 2 3) := by decide
theorem test_decode_skp : decodeWord 0b1110_0001_1001_1110 = .ok (.skp 1) := by decide
theorem test_decode_sknp : decodeWord 0b1110_0001_1010_0001 = .ok (.sknp 1) := by decide
theorem test_decode_ldVxDT : decodeWord 0b1111_0001_0000_0111 = .ok (.ldVxDT 1) := by decide
theorem test_decode_ldVxK : decodeWord 0b1111_0010_0000_1010 = .ok (.ldVxK 2) := by decide
theorem test_decode_ldDTVx : decodeWord 0b1111_0001_0001_0101 = .ok (.ldDTVx 1) := by decide
theorem test_decode_ldSTVx : decodeWord 0b1111_0001_0001_1000 = .ok (.ldSTVx 1) := by decide
theorem test_decode_addI : decodeWord 0b1111_0001_0001_1110 = .ok (.addI 1) := by decide
theorem test_decode_ldF : decodeWord 0b1111_0001_0010_1001 = .ok (.ldF 1) := by decide
theorem test_decode_ldB : decodeWord 0b1111_0001_0011_0011 = .ok (.ldB 1) := by decide
theorem test_decode_ldMemVx : decodeWord 0b1111_0001_0101_0101 = .ok (.ldMemVx 1) := by decide
theorem test_decode_ldVxMem : decodeWord 0b1111_0010_0110_0101 = .ok (.ldVxMem 2) := by decide

/-- E2, E3, E8, E9, E10 of 95_test_vectors.md -/
theorem test_decode_unknown :
    ([0x0000, 0x0123, 0x00E1, 0x00FF, 0x8AB8, 0x8ABF, 0xE09F, 0xE1FF, 0xF000, 0xF0FF, 0xF175, 0xF01F] : List Word).all
      (fun w => decodeWord w == .error (.unknown w)) = true := by decide

/-- S1, as the host numbers the bits of a word -/
theorem test_decodeTableWord : decodeTableWord 16 0x6A0C = some (.ldImm 0xA 0x0C) ∧ decodeTableWord 16 0x0123 = none := by decide

theorem test_decode_too_short : decode [0x6A] = .error .tooShort := by decide

/-! ## One step -/

/-- Q12 -/
theorem test_cls : nextAnd (step (at200 (fun s => s.setDisp (writePixel s.disp 5 0 true)) 0x00E0))
    (fun t => t.pc == 0x202 && !readPixel t 5) = true := by decide

/-- E5, F7 -/
theorem test_ret : nextAnd (step (at200 (stacked 2 0x0ABE) 0x0FEE)) (fun t => t.pc == 0x0ABE && t.sp == 1) = true := by decide

/-- F6 -/
theorem test_ret_underflow : faultIs (step (at200 id 0x00EE)) .stackUnderflow = true := by decide

/-- F1 -/
theorem test_jp : nextAnd (step (at200 id 0x1ABC)) (fun t => t.pc == 0x0ABC) = true := by decide

/-- F4 -/
theorem test_call : nextAnd (step (at200 id 0x2300))
    (fun t => t.pc == 0x0300 && t.sp == 1 && t.stack.get 0 == 0x0202) = true := by decide

/-- F5 -/
theorem test_call_overflow : faultIs (step (at200 (stacked 16 0x0202) 0x2300)) .stackOverflow = true := by decide

/-- F9 -/
theorem test_jpV0 : nextAnd (step (at200 (v01 0xFF 0) 0xBFFF)) (fun t => t.pc == 0x10FE) = true := by decide

/-- 40_control_flow.md R103 in `JUMP_MODE = vx` -/
theorem test_jpV0_vx : nextAnd (step (at200 (fun s => ({ s with config := { s.config with jumpMode := .vx } }).setReg 2 0x10) 0xB200))
    (fun t => t.pc == 0x0210) = true := by decide

/-- F11 -/
theorem test_seImm : nextAnd (step (at200 (fun s => s.setReg 10 0x0C) 0x3A0C)) (fun t => t.pc == 0x204) = true := by decide

/-- F14 -/
theorem test_sneImm : nextAnd (step (at200 (fun s => s.setReg 10 0x0D) 0x4A0C)) (fun t => t.pc == 0x204) = true := by decide

/-- E6 -/
theorem test_seReg : nextAnd (step (at200 (fun s => (s.setReg 10 1).setReg 11 1) 0x5AB1)) (fun t => t.pc == 0x204) = true := by decide

/-- E7 -/
theorem test_sneReg : nextAnd (step (at200 (fun s => (s.setReg 10 1).setReg 11 2) 0x9ABF)) (fun t => t.pc == 0x204) = true := by decide

/-- A1 -/
theorem test_ldImm : nextAnd (step (at200 id 0x6A0C)) (fun t => t.reg 10 == 0x0C && t.pc == 0x202) = true := by decide

/-- S2 -/
theorem test_addImm : nextAnd (step (at200 (fun s => (s.setReg 3 0xFF).setReg 15 1) 0x7301))
    (fun t => t.reg 3 == 0x00 && t.reg 15 == 1) = true := by decide

/-- A5 -/
theorem test_ldReg : nextAnd (step (at200 (v01 0x12 0x34) 0x8010)) (fun t => t.reg 0 == 0x34 && t.reg 1 == 0x34) = true := by decide

/-- A6 -/
theorem test_orReg : nextAnd (step (at200 (fun s => (v01 0xF0 0x0F s).setReg 15 0x5A) 0x8011))
    (fun t => t.reg 0 == 0xFF && t.reg 15 == 0x5A) = true := by decide

/-- A7 -/
theorem test_andReg : nextAnd (step (at200 (v01 0xF0 0x3C) 0x8012)) (fun t => t.reg 0 == 0x30) = true := by decide

/-- A8 -/
theorem test_xorReg : nextAnd (step (at200 (v01 0xF0 0x3C) 0x8013)) (fun t => t.reg 0 == 0xCC) = true := by decide

/-- S3 -/
theorem test_addReg : nextAnd (step (at200 (v01 0xFF 0x01) 0x8014)) (fun t => t.reg 0 == 0x00 && t.reg 15 == 1) = true := by decide

/-- A36 -/
theorem test_addReg_flag_operand : nextAnd (step (at200 (fun s => (s.setReg 1 0xF0).setReg 15 0x20) 0x81F4))
    (fun t => t.reg 1 == 0x10 && t.reg 15 == 1) = true := by decide

/-- S4 -/
theorem test_sub : nextAnd (step (at200 (v01 0x05 0x0A) 0x8015)) (fun t => t.reg 0 == 0xFB && t.reg 15 == 0) = true := by decide

/-- A13 -/
theorem test_sub_equal : nextAnd (step (at200 (v01 0x07 0x07) 0x8015)) (fun t => t.reg 0 == 0x00 && t.reg 15 == 1) = true := by decide

/-- S5 -/
theorem test_shr : nextAnd (step (at200 (v01 0x81 0xFF) 0x8016))
    (fun t => t.reg 0 == 0x40 && t.reg 1 == 0xFF && t.reg 15 == 1) = true := by decide

/-- 41_register_alu.md R130 in `SHIFT_MODE = legacy` -/
theorem test_shr_legacy : nextAnd (step (at200 (fun s => v01 0x81 0xFE { s with config := { s.config with shiftMode := .legacy } }) 0x8016))
    (fun t => t.reg 0 == 0x7F && t.reg 15 == 0) = true := by decide

/-- A18 -/
theorem test_subn : nextAnd (step (at200 (v01 0x0A 0x05) 0x8017)) (fun t => t.reg 0 == 0xFB && t.reg 15 == 0) = true := by decide

/-- A19 -/
theorem test_shl : nextAnd (step (at200 (v01 0x81 0) 0x801E)) (fun t => t.reg 0 == 0x02 && t.reg 15 == 0x01) = true := by decide

/-- A34 -/
theorem test_shl_flag_destination : nextAnd (step (at200 (fun s => s.setReg 15 0x80) 0x8F1E)) (fun t => t.reg 15 == 0x01) = true := by decide

/-- M1 -/
theorem test_ldI : nextAnd (step (at200 id 0xAFFF)) (fun t => t.i == 0x0FFF) = true := by decide

/-- M4 -/
theorem test_addI : nextAnd (step (at200 (fun s => ((v01 0xFF 0 s).setReg 15 7).setI 0xFF80) 0xF01E))
    (fun t => t.i == 0x007F && t.reg 15 == 7) = true := by decide

/-- M8 -/
theorem test_ldF : nextAnd (step (at200 (v01 0xFF 0) 0xF029)) (fun t => t.i == 0x054B) = true := by decide

/-- M11 -/
theorem test_ldB : nextAnd (step (at200 (fun s => (v01 255 0 s).setI 0x0FFD) 0xF033))
    (fun t => t.byte 0xFFD == 2 && t.byte 0xFFE == 5 && t.byte 0xFFF == 5) = true := by decide

/-- M12 -/
theorem test_ldB_out_of_bounds :
    faultIs (step (at200 (fun s => s.setI 0x0FFE) 0xF033)) (.memoryOutOfBounds 4096) = true := by decide

/-- M13 -/
theorem test_ldMemVx : nextAnd (step (at200 (fun s => (v01 0xAA 0xBB s).setI 0x0FFE) 0xF155))
    (fun t => t.byte 0xFFE == 0xAA && t.byte 0xFFF == 0xBB && t.i == 0x0FFE) = true := by decide

/-- M18 -/
theorem test_ldMemVx_out_of_bounds :
    faultIs (step (at200 (fun s => s.setI 0x2345) 0xF055)) (.memoryOutOfBounds 0x2345) = true := by decide

/-- M19 -/
theorem test_ldVxMem : nextAnd (step (at200 (fun s => s.setI 0x050) 0xF465))
    (fun t => t.reg 0 == 0xF0 && t.reg 1 == 0x90 && t.reg 4 == 0xF0 && t.reg 5 == 0) = true := by decide

/-- M17 -/
theorem test_ldVxMem_out_of_bounds :
    faultIs (step (at200 (fun s => s.setI 0x1000) 0xF065)) (.memoryOutOfBounds 4096) = true := by decide

/-- A23 -/
theorem test_rnd : nextAnd (step (at200 (fun s => s.setReg 1 0x55) 0xC100)) (fun t => t.reg 1 == 0 && t.draws == 1) = true := by
  have h : step (at200 (fun s => s.setReg 1 0x55) 0xC100) =
      exec (.rnd 1 0x00) ((at200 (fun s => s.setReg 1 0x55) 0xC100).setPc 0x202) := rfl
  rw [h]
  simp [nextAnd, exec, execRnd, rndWith, at200, State.withFetchWord, State.placeWord, State.reset, State.resetWith]

/-- Q3 -/
theorem test_drw_clips : nextAnd (step (at200 (fun s => ((v01 60 0 s).setI 0x300).setByte 0x300 0xFF) 0xD011))
    (fun t => readPixel t 60 && readPixel t 63 && !readPixel t 0 && !readPixel t 3 && t.reg 15 == 0) = true := by decide

/-- Q5, start coordinates of Q4 -/
theorem test_drw_collides : nextAnd (step (at200 (fun s => (((v01 64 32 s).setI 0x300).setByte 0x300 0xC0).setDisp (writePixel s.disp 0 0 true)) 0xD011))
    (fun t => !readPixel t 0 && readPixel t 1 && t.reg 15 == 1) = true := by decide

/-- K3 -/
theorem test_skp : nextAnd (step (at200 (fun s => (v01 0x15 0 s).setKey 5 true) 0xE09E)) (fun t => t.pc == 0x204) = true := by decide

/-- K4 -/
theorem test_sknp : nextAnd (step (at200 (fun s => (v01 0x05 0 s).setKey 5 true) 0xE0A1)) (fun t => t.pc == 0x202) = true := by decide

/-- K6 -/
theorem test_ldVxK_waits : nextAnd (step (at200 id 0xF20A)) (fun t => t.pc == 0x200 && t.reg 2 == 0) = true := by decide

/-- K7 -/
theorem test_ldVxK : nextAnd (step (at200 (fun s => (s.setKey 3 true).setKey 7 true) 0xF20A))
    (fun t => t.pc == 0x202 && t.reg 2 == 3) = true := by decide

/-- K10 -/
theorem test_ldVxDT : nextAnd (step (at200 (fun s => s.setDt 0x2A) 0xF107)) (fun t => t.reg 1 == 0x2A && t.dt == 0x2A) = true := by decide

/-- K11 -/
theorem test_ldDTVx : nextAnd (step (at200 (v01 0 0x3C) 0xF115)) (fun t => t.dt == 0x3C && t.st == 0) = true := by decide

/-- K12 -/
theorem test_ldSTVx : nextAnd (step (at200 (v01 0 0x02) 0xF118))
    (fun t => t.st == 2 && tone t && !tone (tick (tick t))) = true := by decide

/-! ## Fetch and the state after an error (95_test_vectors.md 2.7) -/

/-- X1 -/
theorem test_last_legal_fetch : nextAnd (step (at200 (fun s => s.setPc 0xFFE) 0x6001))
    (fun t => t.pc == 0x1000 && t.reg 0 == 1) = true := by decide

/-- X2 and X3; F9 -/
theorem test_fetch_out_of_bounds :
    faultIs (step (State.reset.setPc 0x1000)) (.memoryOutOfBounds 4096) = true ∧
    faultIs (step (State.reset.setPc 0x0FFF)) (.memoryOutOfBounds 4096) = true ∧
    faultIs (step (State.reset.setPc 0x10FE)) (.memoryOutOfBounds 4350) = true := by decide

/-- X4 -/
theorem test_odd_fetch : nextAnd (step ((State.reset.setBytes 0x200 [0x60, 0x12, 0x34]).setPc 0x201)) (fun t => t.pc == 0x234) = true := by
  decide

/-- X8 -/
theorem test_first_step_without_rom : (perform .step State.reset).2 = .code (some (.unknownInstruction 0)) ∧
    (perform .step State.reset).1.pc = 0x202 := by decide

/-- F5, the state left -/
theorem test_state_after_overflow : (perform .step (at200 (stacked 16 0x0202) 0x2300)).1.sp = 16 ∧
    (perform .step (at200 (stacked 16 0x0202) 0x2300)).1.pc = 0x202 := by decide

/-- Q9, the state left -/
theorem test_state_after_memory_error :
    (perform .step (at200 (fun s => (s.setI 0x1000).setReg 15 9) 0xD011)).1.reg 15 = 9 ∧
    (perform .step (State.reset.setPc 0x0FFF)).1.pc = 0x0FFF := by decide

/-! ## The host's operations (95_test_vectors.md 2.6, 2.7) -/

/-- K13, K14, S10 -/
theorem test_tick : (tick ((State.reset.setDt 255).setSt 0)).dt = 254 ∧ (tick ((State.reset.setDt 255).setSt 0)).st = 0 ∧
    (tick (tick ((State.reset.setDt 3).setSt 1))).dt = 1 ∧ (tick (tick ((State.reset.setDt 3).setSt 1))).st = 0 := by decide

/-- K15 -/
theorem test_keys : (keyPress 5 (keyPress 5 State.reset)).key.get 5 = true ∧
    (keyRelease 5 (keyRelease 5 (keyPress 5 State.reset))).key = State.reset.key := by decide

/-- K16 -/
theorem test_pixel_index : pixelIndex 63 31 = 2047 ∧ pixelIndex 0 1 = 64 ∧ pixelIndex 5 5 = 325 := by decide

/-- X7 -/
theorem test_load_rom : nextAnd (loadRom [0x12] State.reset)
    (fun t => t.byte 0x200 == 0x12 && t.byte 0x201 == 0 && nextAnd (step t) (fun u => u.pc == 0x200)) = true := by decide

/-- X6 -/
theorem test_load_rom_too_large : loadRom (List.replicate 3585 0xAB) State.reset = .fault .romTooLarge := by
  rw [loadRom, test_rom_fits_refuses]
  rfl

/-- 60_exceptions.md R230 H6, H10 -/
theorem test_launch_order : launchOrder [.reset, .keyPress 1, .loadRom [0x12], .step, .tick] = true ∧
    launchOrder [.reset, .step, .loadRom [0x12]] = false ∧ launchOrder [.step] = false := by decide

/-! ## Witnesses: concrete inputs that meet the hypotheses of each statement, at the boundaries of its clauses -/

theorem witness_EncodeOfDecode : decodeWord 0x0FE0 = .ok .cls ∧ decodeWord 0x5ABF = .ok (.seReg 0xA 0xB) ∧
    decodeWord 0x9AB1 = .ok (.sneReg 0xA 0xB) ∧ decodeWord 0x6A0C = .ok (.ldImm 0xA 0x0C) := by decide

theorem no_row_of_check {w : Word} (h : opcodeTable.all (fun row => !matchesRow w row) = true) :
    ∀ row ∈ opcodeTable, w &&& row.1 ≠ row.2 := by
  simpa only [List.all_eq_true, matchesRow, Bool.not_eq_true', beq_eq_false_iff_ne] using h

theorem witness_OpcodeTableDecidesDecoding : ∀ row ∈ opcodeTable, (0x0123 : Word) &&& row.1 ≠ row.2 :=
  no_row_of_check (by decide)

theorem witness_StepRunsDecodedInstruction :
    (∃ s : State, s.pc.toNat = 4094 ∧
      decodeWord (BitVec.ofNat 16 ((s.byte s.pc.toNat).toNat * 256 + (s.byte (s.pc.toNat + 1)).toNat)) = .ok (.ldImm 0 1)) ∧
    (∃ s : State, s.pc.toNat = 0 ∧
      decodeWord (BitVec.ofNat 16 ((s.byte s.pc.toNat).toNat * 256 + (s.byte (s.pc.toNat + 1)).toNat)) = .ok .ret) :=
  ⟨⟨at200 (fun s => s.setPc 4094) 0x6001, by decide, by decide⟩, ⟨at200 (fun s => s.setPc 0) 0x00EE, by decide, by decide⟩⟩

theorem witness_StepErrorsBeforeExecution :
    4095 ≤ (State.reset.setPc 4095).pc.toNat ∧ (State.reset.setPc 4094).pc.toNat ≤ 4094 ∧
    (State.reset.setPc 4094).wordAt 4094 = 0 ∧ ∀ row ∈ opcodeTable, (0x0000 : Word) &&& row.1 ≠ row.2 :=
  ⟨by decide, by decide, by decide, no_row_of_check (by decide)⟩

theorem witness_StateAfterErrorOfStep :
    (∃ f, step State.reset = .fault f) ∧ (∃ f, step (State.reset.setPc 4094) = .fault f) ∧
    ∃ f, step (State.reset.setPc 4095) = .fault f :=
  ⟨⟨_, fault_of_check (f := .unknownInstruction 0) (by decide)⟩, ⟨_, fault_of_check (f := .unknownInstruction 0) (by decide)⟩,
    ⟨_, fault_of_check (f := .memoryOutOfBounds 4096) (by decide)⟩⟩

theorem witness_ExecFaultsExactly :
    faultIs (exec .ret (stacked 0 0 State.reset)) .stackUnderflow = true ∧
    faultIs (exec (.call 0) (stacked 16 0 State.reset)) .stackOverflow = true ∧
    faultIs (exec (.drw 0 0 1) (State.reset.setI 4096)) (.memoryOutOfBounds 4096) = true ∧
    faultIs (exec (.ldB 0) (State.reset.setI 4094)) (.memoryOutOfBounds 4096) = true ∧
    faultIs (exec (.ldMemVx 1) (State.reset.setI 4095)) (.memoryOutOfBounds 4096) = true ∧
    faultIs (exec (.ldVxMem 15) (State.reset.setI 0xFFFF)) (.memoryOutOfBounds 0xFFFF) = true := by decide

theorem witness_ReturnPopsProgramCounter : (stacked 0 7 State.reset).sp.val = 0 ∧
    (stacked 1 7 State.reset).sp.val = (0 : Fin 16).val + 1 ∧ (stacked 16 7 State.reset).sp.val = (15 : Fin 16).val + 1 := by
  decide

theorem witness_CallPushesReturnAddress : (stacked 16 7 State.reset).sp.val = 16 ∧
    (stacked 0 7 State.reset).sp.val = (0 : Fin 16).val ∧ (stacked 15 7 State.reset).sp.val = (15 : Fin 16).val := by decide

theorem witness_JumpWithOffset : State.reset.config.jumpMode = .v0 ∧
    ({ State.reset with config := { Config.default with jumpMode := .vx } } : State).config.jumpMode = .vx := by decide

theorem witness_CallThenReturnComesBack :
    (∃ s t : State, exec (.call 0x300) s = .next t ∧ DepthKept t.sp.val [] t ∧ (performAll [] t).1.sp = t.sp) ∧
    ∃ s t : State, exec (.call 0x300) s = .next t ∧ DepthKept t.sp.val [.step, .tick, .keyPress 3] t ∧
      (performAll [.step, .tick, .keyPress 3] t).1.sp = t.sp :=
  ⟨⟨State.reset, _, rfl, trivial, rfl⟩,
    ⟨(stacked 15 0x202 State.reset).setBytes 0x300 [0x60, 0x01], _, rfl, by simp only [DepthKept]; decide, by decide⟩⟩

theorem witness_AddWithCarryOut_SubtractBothWays : (14 : Reg) ≠ 15 ∧
    ((v01 0xFF 1 State.reset).reg 0).toNat + ((v01 0xFF 1 State.reset).reg 1).toNat = 256 ∧
    ((v01 0xFE 1 State.reset).reg 0).toNat + ((v01 0xFE 1 State.reset).reg 1).toNat = 255 ∧
    ((v01 1 1 State.reset).reg 0).toNat ≥ ((v01 1 1 State.reset).reg 1).toNat ∧
    ¬((v01 0 1 State.reset).reg 0).toNat ≥ ((v01 0 1 State.reset).reg 1).toNat := by decide

theorem witness_ShiftsByOne : State.reset.config.shiftMode = .modern ∧ (14 : Reg) ≠ 15 ∧
    ({ State.reset with config := { Config.default with shiftMode := .legacy } } : State).config.shiftMode = .legacy := by
  decide

theorem witness_RandomByteIsMasked : (0x00 : Byte) = 0 ∧ ∃ t, exec (.rnd 15 0x00) State.reset = .next t :=
  ⟨rfl, _, rfl⟩

theorem witness_FlagAndRegisterWriters :
    (∃ t, exec (.shr 15 0) State.reset = .next t ∧ WritesFlag (.shr 15 0) ∧ ¬Loads 14 (.shr 15 0)) ∧
    ∃ t, exec (.ldVxMem 14) State.reset = .next t ∧ ¬Loads 15 (.ldVxMem 14) ∧ ¬(WritesFlag (.ldVxMem 14) ∧ (15 : Reg) = 15) :=
  ⟨⟨_, rfl, trivial, by simp [Loads]⟩, ⟨_, rfl, by simp [Loads], by simp [WritesFlag]⟩⟩

theorem witness_StoreDecimalDigits : (State.reset.setI 4094).i.toNat + 2 > 4095 ∧ (State.reset.setI 4093).i.toNat + 2 ≤ 4095 ∧
    (State.reset.setI 4093).memWf := by decide

theorem witness_StoredDigitsStandForValue : (State.reset.setI 4093).memWf ∧
    ∃ t, exec (.ldB 0) ((State.reset.setI 4093).setReg 0 255) = .next t ∧ ((t.byte 4093).toNat == 2) = true :=
  ⟨by decide, next_of_check (by decide)⟩

theorem witness_StoreRegisters_LoadRegisters : (State.reset.setI 4095).i.toNat + (0 : Reg).val ≤ 4095 ∧
    (State.reset.setI 4080).i.toNat + (15 : Reg).val ≤ 4095 ∧ (State.reset.setI 4081).i.toNat + (15 : Reg).val > 4095 ∧
    (State.reset.setI 4096).i.toNat + (0 : Reg).val > 4095 ∧ (State.reset.setI 4080).memWf ∧ (0 : Reg) ≤ 15 ∧ (14 : Reg) < 15 := by
  decide

theorem witness_StoreThenLoadRestoresRegisters : (State.reset.setI 0x300).memWf ∧
    ∃ t u : State, exec (.ldMemVx 15) (State.reset.setI 0x300) = .next t ∧ (∀ a, u.byte a = t.byte a) ∧ u.i = t.i ∧
      u.reg 3 ≠ t.reg 3 :=
  ⟨by decide, _, State.setReg _ 3 9, rfl, fun _ => rfl, rfl, by decide⟩

theorem witness_NextFetchSeesStore : ∃ s t : State, s.memWf ∧ exec (.ldMemVx 1) s = .next t ∧ (0 : Reg) < 1 ∧
    t.pc.toNat = s.i.toNat + (0 : Reg).val ∧
    decodeWord (BitVec.ofNat 16 ((s.reg 0).toNat * 256 + (s.reg (0 + 1)).toNat)) = .ok (.jp 0x208) :=
  ⟨(v01 0x12 0x08 State.reset).setI 0x200, _, by decide, rfl, by decide, by decide, by decide⟩

theorem witness_DrawSprite :
    (1 ≤ (1 : Fin 16).val ∧ (State.reset.setI 4096).i.toNat + (1 : Fin 16).val - 1 > 4095) ∧
    (1 ≤ (15 : Fin 16).val ∧ (State.reset.setI 4082).i.toNat + (15 : Fin 16).val - 1 > 4095) ∧
    (State.reset.setI 4081).i.toNat + (15 : Fin 16).val - 1 ≤ 4095 ∧ (0 : Fin 16).val = 0 := by decide

theorem witness_SpriteBit : SpriteBit (((v01 63 31 State.reset).setI 0x300).setByte 0x300 0x80) 0 1 1 63 31 :=
  ⟨0, 0, by decide, by decide, by decide, by decide, by decide⟩

theorem witness_DrawTwiceRestoresDisplay : ∃ s t u : State, exec (.drw 0 1 1) s = .next t ∧
    (t.reg 0).toNat % 64 = (s.reg 0).toNat % 64 ∧ (t.reg 1).toNat % 32 = (s.reg 1).toNat % 32 ∧
    exec (.drw 0 1 1) t = .next u :=
  ⟨((v01 63 31 State.reset).setI 0x300).setByte 0x300 0x80, _, _, rfl, rfl, rfl, rfl⟩

theorem witness_DrawChangesFewPixels :
    ∃ t, exec (.drw 0 1 1) (((v01 0 0 State.reset).setI 0x300).setByte 0x300 0xFF) = .next t ∧ readPixel t 7 = true :=
  next_of_check (p := fun t => readPixel t 7) (by decide)

theorem witness_SkipsOnKey :
    true = ((v01 0x15 0 State.reset).setKey 5 true).key.get (Fin.ofNat 16 (((v01 0x15 0 State.reset).reg 0).toNat % 16)) ∧
    false = (v01 0x15 0 State.reset).key.get (Fin.ofNat 16 (((v01 0x15 0 State.reset).reg 0).toNat % 16)) := by decide

theorem witness_WaitForKey : (∀ k, State.reset.key.get k = false) ∧
    (State.reset.setKey 15 true).key.get 15 = true ∧ (∀ j, j < 15 → (State.reset.setKey 15 true).key.get j = false) ∧
    ((State.reset.setKey 0 true).setKey 7 true).key.get 0 = true := by decide

theorem witness_WaitingStepChangesNothing : ∃ s : State, s.pc.toNat ≤ 4094 ∧
    decodeWord (s.wordAt s.pc.toNat) = .ok (.ldVxK 2) ∧ ∀ k, s.key.get k = false :=
  ⟨at200 (fun s => s.setPc 4094) 0xF20A, by decide, by decide, by decide⟩

theorem witness_TicksReachZeroAndStay : (State.reset.setDt 255).dt.toNat ≤ 255 ∧ ¬(State.reset.setDt 255).dt.toNat ≤ 254 := by
  decide

theorem witness_KeyPressAndRelease : (3 : Fin 16) ≠ 15 := by decide

theorem witness_LoadRomWritesProgram : 3584 < (List.replicate 3585 (0xAB : Byte)).length ∧
    (List.replicate 3584 (0xAB : Byte)).length ≤ 3584 ∧ ([] : List Byte).length ≤ 3584 ∧ State.reset.memWf ∧
    3583 < (List.replicate 3584 (0xAB : Byte)).length := by
  simp only [List.length_replicate]
  decide

theorem witness_OnlyListedWriters :
    (∃ t, exec (.ldI 0x300) State.reset = .next t ∧ (t.i != State.reset.i) = true) ∧
    (∃ t, exec (.call 0x300) State.reset = .next t ∧ (t.stack != State.reset.stack && t.sp != State.reset.sp) = true) ∧
    (∃ t, exec (.ldDTVx 0) (v01 1 0 State.reset) = .next t ∧ (t.dt != State.reset.dt) = true) ∧
    (∃ t, exec (.ldSTVx 0) (v01 1 0 State.reset) = .next t ∧ (t.st != State.reset.st) = true) ∧
    (∃ t, exec (.drw 0 0 1) (State.reset.setI 0x050) = .next t ∧ pixelAt t.disp 0 0 = true) ∧
    (∃ t, exec (.ldB 0) (v01 1 0 State.reset) = .next t ∧ (t.mem != State.reset.mem) = true) ∧
    ∃ t, loadRom [0x12] State.reset = .next t :=
  ⟨next_of_check (by decide), next_of_check (by decide), next_of_check (by decide), next_of_check (by decide),
    next_of_check (p := fun t => pixelAt t.disp 0 0) (by decide), next_of_check (by decide), _, rfl⟩

theorem witness_BootRunsFirstRomWord : (List.replicate 3582 (0 : Byte)).length + 2 ≤ 3584 ∧
    decodeWord (BitVec.ofNat 16 ((0x12 : Byte).toNat * 256 + (0x00 : Byte).toNat)) = .ok (.jp 0x200) := by
  simp only [List.length_replicate]
  decide

theorem witness_EndedStateIsFixed : ended (at200 id 0x1200) = true ∧
    ended (at200 (fun s => s.setPc 0xFFE) 0x1FFE) = true := by decide

theorem witness_StepKeepsMemoryCanonical : ∃ s : State, s.memWf ∧ ∃ t, step s = .next t ∧ (t.mem != s.mem) = true :=
  ⟨at200 (fun s => (v01 255 0 s).setI 0x0FFD) 0xF033, by decide, next_of_check (by decide)⟩

theorem witness_StepKeepsPcBounded : ∃ s : State, PcBounded s ∧ ∃ t, step s = .next t ∧ (t.pc == 0x10FE) = true := by
  refine ⟨at200 (v01 0xFF 0) 0xBFFF, ?_, next_of_check (by decide)⟩
  simp only [PcBounded]
  decide

theorem witness_CommandsKeepInvariants : (stacked 16 4096 State.reset).memWf ∧ PcBounded (stacked 16 4096 State.reset) := by
  simp only [PcBounded]
  decide

theorem witness_PcMovesByWholeInstructions :
    (∃ s : State, s.pc.toNat ≤ 4094 ∧ decodeWord (s.wordAt s.pc.toNat) = .ok (.ldImm 0 1) ∧ ∃ t, step s = .next t ∧ (t.pc == 4096) = true) ∧
    (∃ s : State, s.pc.toNat ≤ 4094 ∧ decodeWord (s.wordAt s.pc.toNat) = .ok (.seImm 0 0) ∧ ∃ t, step s = .next t ∧ (t.pc == 4098) = true) ∧
    ∃ s : State, s.pc.toNat ≤ 4094 ∧ decodeWord (s.wordAt s.pc.toNat) = .ok (.ldVxK 2) ∧ ∃ t, step s = .next t ∧ (t.pc == 0) = true :=
  ⟨⟨at200 (fun s => s.setPc 4094) 0x6001, by decide, by decide, next_of_check (by decide)⟩,
    ⟨at200 (fun s => s.setPc 4094) 0x3000, by decide, by decide, next_of_check (by decide)⟩,
    ⟨at200 (fun s => s.setPc 0) 0xF20A, by decide, by decide, next_of_check (by decide)⟩⟩

theorem witness_SoundTimerIsNeverRead : ∀ x, Instr.ldVxDT 3 ≠ .ldSTVx x := by simp

theorem witness_TimerKeypadDisplayReaders : (∀ x, Instr.ldSTVx 3 ≠ .ldVxDT x ∧ Instr.ldSTVx 3 ≠ .ldDTVx x) ∧
    (∀ x, Instr.ldVxDT 3 ≠ .skp x ∧ Instr.ldVxDT 3 ≠ .sknp x ∧ Instr.ldVxDT 3 ≠ .ldVxK x) ∧
    (Instr.skp 3 ≠ .cls ∧ ∀ x y n, Instr.skp 3 ≠ .drw x y n) ∧ ∀ x nn, Instr.cls ≠ .rnd x nn := by simp

end Sys2Proof.Tests
end

section
/-! PROOFS. What an instruction that answers a next state has done, said once: `exec_effect`. -/

namespace Sys2Proof.Machine

open Claims

/-- The six skips (40_control_flow.md R108). -/
def Skips (i : Instr) : Prop :=
  (∃ x nn, i = .seImm x nn ∨ i = .sneImm x nn) ∨ (∃ x y, i = .seReg x y ∨ i = .sneReg x y) ∨ ∃ x, i = .skp x ∨ i = .sknp x

/-- The state 00EE leaves (40_control_flow.md R100). -/
def State.popped (s : State) (h : 0 < s.sp.val) : State :=
  { s with pc := s.stack.get ⟨s.sp.val - 1, by omega⟩, sp := ⟨s.sp.val - 1, by omega⟩ }

/-- The state with `a` pushed (40_control_flow.md R102). -/
def State.pushed (s : State) (a : Word) (h : s.sp.val < 16) : State :=
  { s with stack := s.stack.set s.sp.val a h, sp := ⟨s.sp.val + 1, by omega⟩ }

section Stack

variable (s : State)

@[simp] theorem popped_v (h : 0 < s.sp.val) : (s.popped h).v = s.v := rfl
@[simp] theorem popped_i (h : 0 < s.sp.val) : (s.popped h).i = s.i := rfl
@[simp] theorem popped_stack (h : 0 < s.sp.val) : (s.popped h).stack = s.stack := rfl
@[simp] theorem popped_dt (h : 0 < s.sp.val) : (s.popped h).dt = s.dt := rfl
@[simp] theorem popped_st (h : 0 < s.sp.val) : (s.popped h).st = s.st := rfl
@[simp] theorem popped_key (h : 0 < s.sp.val) : (s.popped h).key = s.key := rfl
@[simp] theorem popped_disp (h : 0 < s.sp.val) : (s.popped h).disp = s.disp := rfl
@[simp] theorem popped_mem (h : 0 < s.sp.val) : (s.popped h).mem = s.mem := rfl
@[simp] theorem popped_config (h : 0 < s.sp.val) : (s.popped h).config = s.config := rfl

@[simp] theorem pushed_v (a : Word) (h : s.sp.val < 16) : (s.pushed a h).v = s.v := rfl
@[simp] theorem pushed_i (a : Word) (h : s.sp.val < 16) : (s.pushed a h).i = s.i := rfl
@[simp] theorem pushed_dt (a : Word) (h : s.sp.val < 16) : (s.pushed a h).dt = s.dt := rfl
@[simp] theorem pushed_st (a : Word) (h : s.sp.val < 16) : (s.pushed a h).st = s.st := rfl
@[simp] theorem pushed_key (a : Word) (h : s.sp.val < 16) : (s.pushed a h).key = s.key := rfl
@[simp] theorem pushed_disp (a : Word) (h : s.sp.val < 16) : (s.pushed a h).disp = s.disp := rfl
@[simp] theorem pushed_mem (a : Word) (h : s.sp.val < 16) : (s.pushed a h).mem = s.mem := rfl
@[simp] theorem pushed_config (a : Word) (h : s.sp.val < 16) : (s.pushed a h).config = s.config := rfl

@[simp] theorem reg_popped (h : 0 < s.sp.val) (r : Reg) : (s.popped h).reg r = s.reg r := rfl
@[simp] theorem reg_pushed (a : Word) (h : s.sp.val < 16) (r : Reg) : (s.pushed a h).reg r = s.reg r := rfl

end Stack

/-- The effects an instruction can have after the fetch, by the part of the state that changes: instruction `i`, executed in
`s`, answers the state at hand. -/
inductive Effect (i : Instr) (s : State) : State → Prop
  | skip (c : Bool) (hi : Skips i) : Effect i s (s.skipIf c)
  | jump (a : Word) (ha : a.toNat ≤ 0x10FE) (hi : ∃ nnn, i = .jp nnn ∨ i = .jpV0 nnn) : Effect i s (s.setPc a)
  | wait (hi : ∃ x, i = .ldVxK x) : Effect i s (s.setPc (s.pc - 2))
  | ret (hs : 0 < s.sp.val) (hi : i = .ret) : Effect i s (s.popped hs)
  | call (nnn : Addr) (hs : s.sp.val < 16) (hi : i = .call nnn) : Effect i s ((s.pushed s.pc hs).setPc (zext16 nnn))
  | load (x : Reg) (b : Byte) (hi : Loads x i) : Effect i s (s.setReg x b)
  | result (x : Reg) (b : Byte) (f : Bool) (hi : Loads x i) (hf : WritesFlag i) : Effect i s (s.setResultFlag x b f)
  | random (x : Reg) (b : Byte) (hi : Loads x i) : Effect i s (s.setReg x b).drawn
  | loadMany (x : Reg) (bs : List Byte) (hbs : bs.length = x.val + 1) (hi : i = .ldVxMem x) : Effect i s (s.setRegs 0 bs)
  | index (a : Word) (hi : (∃ nnn, i = .ldI nnn) ∨ ∃ x, i = .addI x ∨ i = .ldF x) : Effect i s (s.setI a)
  | delay (b : Byte) (hi : ∃ x, i = .ldDTVx x) : Effect i s (s.setDt b)
  | sound (b : Byte) (hi : ∃ x, i = .ldSTVx x) : Effect i s (s.setSt b)
  | clear (hi : i = .cls) : Effect i s (s.setDisp clearDisplay)
  | draw (d : Display) (hit : Bool) (hi : ∃ x y n, i = .drw x y n) : Effect i s ((s.setDisp d).setFlag hit)
  | store (bs : List Byte) (hbs : s.i.toNat + bs.length ≤ 4096) (hi : ∃ x, i = .ldB x ∨ i = .ldMemVx x) :
      Effect i s (s.setBytes s.i.toNat bs)

variable {s t : State}

/-! The instructions that can fail: what they have done when they did not. -/

theorem execRet_next (h : execRet s = .next t) : ∃ hs : 0 < s.sp.val, t = s.popped hs := by
  by_cases hs : 0 < s.sp.val
  · rw [execRet, popPc_ok hs] at h
    cases h
    exact ⟨hs, rfl⟩
  · rw [execRet, popPc_error (by omega)] at h
    cases h

theorem execCall_next {nnn : Addr} (h : execCall nnn s = .next t) :
    ∃ hs : s.sp.val < 16, t = (s.pushed s.pc hs).setPc (zext16 nnn) := by
  by_cases hs : s.sp.val < 16
  · rw [execCall, push_ok s.pc hs] at h
    cases h
    exact ⟨hs, rfl⟩
  · rw [execCall, push_error s.pc (by omega)] at h
    cases h

theorem memWrite_next {a : Nat} {bs : List Byte} (hbs : bs.length ≥ 1) (h : toResult (s.memWrite a bs) = .next t) :
    a + bs.length ≤ 4096 ∧ t = s.setBytes a bs := by
  obtain ⟨hr, he⟩ | ⟨-, -, he⟩ := memWrite_cases s a bs <;> rw [he] at h <;> cases h
  exact ⟨by omega, rfl⟩

theorem execLdVxMem_next {x : Reg} (h : execLdVxMem x s = .next t) : t = s.setRegs 0 (s.bytes s.i.toNat (x.val + 1)) := by
  obtain ⟨-, he⟩ | ⟨-, -, he⟩ := memRead_cases s s.i.toNat (x.val + 1) <;> rw [execLdVxMem, he] at h <;> cases h
  rfl

theorem execDrw_next {x y : Reg} {n : Fin 16} (h : execDrw x y n s = .next t) : ∃ d hit, t = (s.setDisp d).setFlag hit := by
  obtain ⟨-, he⟩ | ⟨-, -, he⟩ := memRead_cases s s.i.toNat n.val <;> rw [execDrw, he] at h <;> cases h
  exact ⟨_, _, rfl⟩

/-- BNNN reaches at most 0x10FE (40_control_flow.md R103). -/
theorem toNat_jumpTarget_le (s : State) (nnn : Addr) : (s.jumpTarget nnn).toNat ≤ 0x10FE := by
  have hn := nnn.isLt
  have hr := (s.reg (s.jumpRegister nnn)).isLt
  rw [State.jumpTarget, BitVec.toNat_ofNat]
  omega

theorem toNat_zext16 (nnn : Addr) : (zext16 nnn).toNat = nnn.toNat :=
  BitVec.toNat_setWidth_of_le (by omega)

/-- Everything an instruction that answers a next state has done. -/
theorem exec_effect {i : Instr} (h : exec i s = .next t) : Effect i s t := by
  cases i with
  | cls => cases h; exact .clear rfl
  | ret => obtain ⟨hs, rfl⟩ := execRet_next h; exact .ret hs rfl
  | jp nnn => cases h; exact .jump _ (by have := nnn.isLt; rw [toNat_zext16]; omega) ⟨nnn, .inl rfl⟩
  | jpV0 nnn => cases h; exact .jump _ (toNat_jumpTarget_le s nnn) ⟨nnn, .inr rfl⟩
  | call nnn => obtain ⟨hs, rfl⟩ := execCall_next h; exact .call nnn hs rfl
  | seImm x nn => cases h; exact .skip _ (.inl ⟨x, nn, .inl rfl⟩)
  | sneImm x nn => cases h; exact .skip _ (.inl ⟨x, nn, .inr rfl⟩)
  | seReg x y => cases h; exact .skip _ (.inr (.inl ⟨x, y, .inl rfl⟩))
  | sneReg x y => cases h; exact .skip _ (.inr (.inl ⟨x, y, .inr rfl⟩))
  | skp x => cases h; exact .skip _ (.inr (.inr ⟨x, .inl rfl⟩))
  | sknp x => cases h; exact .skip _ (.inr (.inr ⟨x, .inr rfl⟩))
  | ldImm x _ | addImm x _ | ldReg x _ | orReg x _ | andReg x _ | xorReg x _ | ldVxDT x => cases h; exact .load x _ rfl
  | addReg x _ | sub x _ | shr x _ | subn x _ | shl x _ => cases h; exact .result x _ _ rfl trivial
  | rnd x nn => cases h; exact .random x _ rfl
  | ldI nnn => cases h; exact .index _ (.inl ⟨nnn, rfl⟩)
  | addI x => cases h; exact .index _ (.inr ⟨x, .inl rfl⟩)
  | ldF x => cases h; exact .index _ (.inr ⟨x, .inr rfl⟩)
  | drw x y n => obtain ⟨d, hit, rfl⟩ := execDrw_next h; exact .draw d hit ⟨x, y, n, rfl⟩
  | ldVxK x =>
    obtain ⟨-, hk⟩ | ⟨k, -, -, hk⟩ := lowestKey_cases s <;> simp only [exec, execLdVxK, hk] at h <;> cases h
    · exact .wait ⟨x, rfl⟩
    · exact .load x _ rfl
  | ldDTVx x => cases h; exact .delay _ ⟨x, rfl⟩
  | ldSTVx x => cases h; exact .sound _ ⟨x, rfl⟩
  | ldB x => obtain ⟨hr, rfl⟩ := memWrite_next (by simp) h; exact .store _ hr ⟨x, .inl rfl⟩
  | ldMemVx x => obtain ⟨hr, rfl⟩ := memWrite_next (by simp) h; exact .store _ hr ⟨x, .inr rfl⟩
  | ldVxMem x => obtain rfl := execLdVxMem_next h; exact .loadMany x _ (by simp) rfl

end Sys2Proof.Machine
end

section
/-! PROOFS. The two invariants of the state, over steps and over the commands of the host (10_state.md R25, R32). -/

namespace Sys2Proof.Machine

open Claims

variable {s t : State}

/-! Memory in canonical form. -/

theorem memWf_of_mem_eq (hm : t.mem = s.mem) (hc : t.config = s.config) (h : s.memWf) : t.memWf := by
  simpa only [State.memWf, hm, hc] using h

theorem exec_keeps_memWf {i : Instr} (hs : s.memWf) (h : exec i s = .next t) : t.memWf := by
  cases exec_effect h with
  | store bs hbs _ => exact memWf_setBytes hs hbs
  | _ => exact memWf_of_mem_eq (by simp) (by simp) hs

theorem step_keeps_memWf (hs : s.memWf) (h : step s = .next t) : t.memWf := by
  obtain ⟨-, i, -, hi⟩ := step_next_cases h
  exact exec_keeps_memWf (s := s.setPc (s.pc + 2)) hs hi

/-! The bound on `PC`. -/

/-- A live entry of the call stack is a return address, from 2 to 4096 (10_state.md R26). -/
def StackBounded (s : State) : Prop :=
  ∀ j : Fin 16, j.val < s.sp.val → 2 ≤ (s.stack.get j).toNat ∧ (s.stack.get j).toNat ≤ 4096

theorem pcBounded_of_stack_eq (hk : t.stack = s.stack) (hp : t.sp = s.sp) (hpc : t.pc.toNat ≤ 0x10FE) (h : StackBounded s) :
    PcBounded t :=
  ⟨hpc, by simpa only [StackBounded, hk, hp] using h⟩

theorem pcBounded_popped (hs : 0 < s.sp.val) (h : StackBounded s) : PcBounded (s.popped hs) := by
  obtain ⟨-, htop⟩ := h ⟨s.sp.val - 1, by omega⟩ (by simp; omega)
  have hkeep : StackBounded (s.popped hs) := fun j hj => h j (lt_of_lt_of_le hj (Nat.sub_le ..))
  exact ⟨le_trans htop (by decide), hkeep⟩

theorem stackBounded_pushed {a : Word} (hs : s.sp.val < 16) (h2 : 2 ≤ a.toNat) (ha : a.toNat ≤ 4096) (h : StackBounded s) :
    StackBounded (s.pushed a hs) := by
  intro j hj
  simp only [State.pushed, Vector.get_eq_getElem, Vector.getElem_set] at hj ⊢
  split
  · exact ⟨h2, ha⟩
  · next hne => exact h j (by omega)

theorem toNat_add_two {a : Word} (h : a.toNat ≤ 4096) : (a + 2).toNat = a.toNat + 2 := by bv_omega

theorem toNat_sub_two {a : Word} (h : 2 ≤ a.toNat) : (a - 2).toNat = a.toNat - 2 := by bv_omega

theorem toNat_skipIf_pc (h : s.pc.toNat ≤ 4096) (c : Bool) :
    (s.skipIf c).pc.toNat = if c then s.pc.toNat + 2 else s.pc.toNat := by
  cases c
  · rfl
  · exact toNat_add_two h

/-- An instruction runs with `PC` past it, so from 2 to 4096. -/
theorem exec_keeps_pcBounded {i : Instr} (h2 : 2 ≤ s.pc.toNat) (hp : s.pc.toNat ≤ 4096) (hs : StackBounded s)
    (h : exec i s = .next t) : PcBounded t := by
  cases exec_effect h with
  | skip c _ =>
    refine pcBounded_of_stack_eq (by simp) (by simp) ?_ hs
    rw [toNat_skipIf_pc hp]
    split <;> omega
  | jump a ha _ => exact pcBounded_of_stack_eq rfl rfl ha hs
  | wait _ => exact pcBounded_of_stack_eq rfl rfl (by rw [setPc_pc, toNat_sub_two h2]; omega) hs
  | ret h0 _ => exact pcBounded_popped h0 hs
  | call nnn h16 _ =>
    have hn := nnn.isLt
    refine pcBounded_of_stack_eq rfl rfl ?_ (stackBounded_pushed h16 h2 hp hs)
    rw [setPc_pc, toNat_zext16]
    omega
  | _ => exact pcBounded_of_stack_eq (by simp) (by simp) (by simp; omega) hs

theorem step_keeps_pcBounded (hs : PcBounded s) (h : step s = .next t) : PcBounded t := by
  obtain ⟨hp, i, -, hi⟩ := step_next_cases h
  have hpc := toNat_pc_add_two hp
  exact exec_keeps_pcBounded (s := s.setPc (s.pc + 2)) (by rw [setPc_pc]; omega) (by rw [setPc_pc]; omega) hs.2 hi

/-! Reset, `LoadRom`, and the state an error leaves. -/

theorem memWf_resetWith (cfg : Config) : (State.resetWith cfg).memWf := rfl

theorem pcBounded_resetWith (cfg : Config) : PcBounded (State.resetWith cfg) :=
  ⟨by simp [State.resetWith], fun j hj => absurd hj (Nat.not_lt_zero j.val)⟩

theorem loadRom_next {bytes : List Byte} (h : loadRom bytes s = .next t) :
    bytes.length ≤ 3584 ∧ t = s.setBytes 0x200 bytes := by
  unfold loadRom at h
  split at h
  · next hb => cases h; exact ⟨of_decide_eq_true hb, rfl⟩
  · cases h

theorem memWf_afterError (h : s.memWf) : s.afterError.memWf := by
  unfold State.afterError
  split <;> exact h

theorem pcBounded_afterError (h : PcBounded s) : PcBounded s.afterError := by
  unfold State.afterError
  split
  · exact h
  · next hp =>
    have hpc := toNat_pc_add_two (s := s) (by omega)
    exact pcBounded_of_stack_eq rfl rfl (by rw [setPc_pc]; omega) h.2

/-- A property of the state that reset has, that `LoadRom`, steps and errors keep, and that no timer, key or pixel decides,
survives every command. -/
theorem perform_keeps {P : State → Prop} (c : Command) (h : P s) (hreset : P (hostReset s))
    (hload : ∀ {bytes t}, loadRom bytes s = .next t → P t) (hstep : ∀ {t}, step s = .next t → P t) (herr : P s.afterError)
    (htick : P (tick s)) (hkey : ∀ k b, P (s.setKey k b)) : P (perform c s).1 := by
  cases c with
  | reset => exact hreset
  | loadRom bytes =>
    simp only [perform]
    split
    · next hl => exact hload hl
    · exact h
    · exact h
  | step =>
    simp only [perform]
    split
    · next hn => exact hstep hn
    · exact herr
    · exact h
  | tick => exact htick
  | keyPress k => exact hkey k true
  | keyRelease k => exact hkey k false
  | readPixel p => exact h

theorem perform_keeps_memWf (c : Command) (h : s.memWf) : (perform c s).1.memWf := by
  refine perform_keeps (P := State.memWf) c h rfl ?_ (step_keeps_memWf h) (memWf_afterError h) h fun _ _ => h
  intro bytes t hl
  obtain ⟨hlen, rfl⟩ := loadRom_next hl
  exact memWf_setBytes h (by omega)

theorem perform_keeps_pcBounded (c : Command) (h : PcBounded s) : PcBounded (perform c s).1 := by
  refine perform_keeps c h (pcBounded_resetWith s.config) ?_ (step_keeps_pcBounded h) (pcBounded_afterError h) h fun _ _ => h
  intro bytes t hl
  obtain ⟨-, rfl⟩ := loadRom_next hl
  exact pcBounded_of_stack_eq (by simp) (by simp) (by simpa using h.1) h.2

/-- Settles O54: only FX33 and FX55 change memory, and a store in range keeps the form. -/
theorem stepKeepsMemoryCanonical : Obligations.StepKeepsMemoryCanonical :=
  fun _ _ hs h => step_keeps_memWf hs h

/-- Settles O55: a step leaves `PC` past an instruction, at a jump's target or at a live return address. -/
theorem stepKeepsPcBounded : Obligations.StepKeepsPcBounded :=
  fun _ _ hs h => step_keeps_pcBounded hs h

/-- Settles O56, command by command. -/
theorem commandsKeepInvariants : Obligations.CommandsKeepInvariants :=
  fun c _ hm hp => ⟨perform_keeps_memWf c hm, perform_keeps_pcBounded c hp⟩

/-- Settles O57: after reset no cell is listed and no return address is live. -/
theorem invariantsHoldAtReset : Obligations.InvariantsHoldAtReset :=
  fun cfg => ⟨memWf_resetWith cfg, pcBounded_resetWith cfg⟩

/-! How far `PC` moves. -/

theorem step_eq_exec {i : Instr} (hp : s.pc.toNat ≤ 4094) (hd : decodeWord (s.wordAt s.pc.toNat) = .ok i) :
    step s = exec i (s.setPc (s.pc + 2)) := by
  simp only [step, fetch_ok hp, hd]

/-- Settles O58: after the fetch has moved `PC` by 2, a skip adds 2 and FX0A may take the 2 back. -/
theorem pcMovesByWholeInstructions : Obligations.PcMovesByWholeInstructions := by
  intro s t i hp hd h hno
  obtain ⟨hret, hjp⟩ := hno
  have hpc := toNat_pc_add_two hp
  rw [step_eq_exec hp hd] at h
  cases exec_effect h with
  | skip c hi =>
    rw [toNat_skipIf_pc (by rw [setPc_pc]; omega), setPc_pc, hpc]
    cases c
    · exact .inl rfl
    · exact .inr (.inl ⟨rfl, hi⟩)
  | wait hi => exact .inr (.inr ⟨by rw [setPc_pc, setPc_pc, toNat_sub_two (by omega)]; omega, hi⟩)
  | jump a _ hi =>
    obtain ⟨nnn, rfl | rfl⟩ := hi
    · exact absurd rfl (hjp nnn).1
    · exact absurd rfl (hjp nnn).2.2
  | ret _ hi => exact absurd hi hret
  | call nnn _ hi => exact absurd hi (hjp nnn).2.1
  | _ => exact .inl (by simpa using hpc)

end Sys2Proof.Machine
end

section
/-! PROOFS. Which instructions write which part of the state (10_state.md R20 to R23), and the state after reset. -/

namespace Sys2Proof.Machine

open Claims

variable {s t : State} {i : Instr}

/-! General registers. -/

theorem flagByte_eq_zero_or_one (b : Bool) : flagByte b = 0 ∨ flagByte b = 1 := by cases b <;> decide

/-- The flag is the last thing a flag-writing instruction writes (41_register_alu.md R121). -/
theorem exec_ends_with_setFlag (hf : WritesFlag i) (h : exec i s = .next t) : ∃ u b, t = State.setFlag u b := by
  cases i with
  | addReg x y | sub x y | shr x y | subn x y | shl x y => cases h; exact ⟨_, _, rfl⟩
  | drw x y n => obtain ⟨d, hit, rfl⟩ := execDrw_next h; exact ⟨_, _, rfl⟩
  | _ => exact False.elim hf

theorem exec_flag_zero_or_one (hf : WritesFlag i) (h : exec i s = .next t) : t.reg 15 = 0 ∨ t.reg 15 = 1 := by
  obtain ⟨u, b, rfl⟩ := exec_ends_with_setFlag hf h
  rw [reg_setFlag, if_pos rfl]
  exact flagByte_eq_zero_or_one b

theorem ne_of_loads {x r : Reg} (hi : Loads x i) (hr : ¬Loads r i) : r ≠ x :=
  fun h => hr (h ▸ hi)

theorem exec_keeps_reg {r : Reg} (hr : ¬Loads r i) (hf : ¬(WritesFlag i ∧ r = 15)) (h : exec i s = .next t) :
    t.reg r = s.reg r := by
  cases exec_effect h with
  | load x b hi => rw [reg_setReg, if_neg (ne_of_loads hi hr)]
  | result x b f hi hw => rw [reg_setResultFlag, if_neg fun h15 => hf ⟨hw, h15⟩, if_neg (ne_of_loads hi hr)]
  | random x b hi => rw [reg_drawn, reg_setReg, if_neg (ne_of_loads hi hr)]
  | loadMany x bs hbs hi =>
    subst hi
    have hx : ¬r.val ≤ x.val := hr
    rw [setRegs_reg s bs 0 (by omega), dif_neg (by omega)]
  | draw d hit hi =>
    obtain ⟨x, y, n, rfl⟩ := hi
    rw [reg_setFlag, if_neg fun h15 => hf ⟨trivial, h15⟩, reg_setDisp]
  | _ => simp

/-- Settles O25. -/
theorem flagAndRegisterWriters : Obligations.FlagAndRegisterWriters :=
  fun _ _ _ h => ⟨fun hf => exec_flag_zero_or_one hf h, fun _ hr hf => exec_keeps_reg hr hf h⟩

/-! The other parts of the state: one lemma a part, whose named cases are its writers. -/

theorem exec_key (h : exec i s = .next t) : t.key = s.key := by
  cases exec_effect h <;> simp

theorem exec_config (h : exec i s = .next t) : t.config = s.config := by
  cases exec_effect h <;> simp

theorem exec_index_writers (h : exec i s = .next t) : t.i ≠ s.i → (∃ nnn, i = .ldI nnn) ∨ ∃ x, i = .addI x ∨ i = .ldF x := by
  cases exec_effect h with
  | index _ hi => exact fun _ => hi
  | _ => simp

theorem exec_stack_writers (h : exec i s = .next t) : t.stack ≠ s.stack → ∃ nnn, i = .call nnn := by
  cases exec_effect h with
  | call nnn _ hi => exact fun _ => ⟨nnn, hi⟩
  | _ => simp

theorem exec_sp_writers (h : exec i s = .next t) : t.sp ≠ s.sp → i = .ret ∨ ∃ nnn, i = .call nnn := by
  cases exec_effect h with
  | ret _ hi => exact fun _ => .inl hi
  | call nnn _ hi => exact fun _ => .inr ⟨nnn, hi⟩
  | _ => simp

theorem exec_dt_writers (h : exec i s = .next t) : t.dt ≠ s.dt → ∃ x, i = .ldDTVx x := by
  cases exec_effect h with
  | delay _ hi => exact fun _ => hi
  | _ => simp

theorem exec_st_writers (h : exec i s = .next t) : t.st ≠ s.st → ∃ x, i = .ldSTVx x := by
  cases exec_effect h with
  | sound _ hi => exact fun _ => hi
  | _ => simp

theorem exec_disp_writers (h : exec i s = .next t) : t.disp ≠ s.disp → i = .cls ∨ ∃ x y n, i = .drw x y n := by
  cases exec_effect h with
  | clear hi => exact fun _ => .inl hi
  | draw _ _ hi => exact fun _ => .inr hi
  | _ => simp

theorem exec_mem_writers (h : exec i s = .next t) : t.mem ≠ s.mem → ∃ x, i = .ldB x ∨ i = .ldMemVx x := by
  cases exec_effect h with
  | store _ _ hi => exact fun _ => hi
  | _ => simp

theorem setBytes_eq_with_mem (s : State) (a : Nat) (bs : List Byte) : ∃ m, s.setBytes a bs = { s with mem := m } := by
  induction bs generalizing s a with
  | nil => exact ⟨s.mem, rfl⟩
  | cons b bs ih => exact ih (s.setByte a b) (a + 1)

theorem loadRom_changes_mem {bytes : List Byte} (h : loadRom bytes s = .next t) : ∃ m, t = { s with mem := m } := by
  obtain ⟨-, rfl⟩ := loadRom_next h
  exact setBytes_eq_with_mem s 0x200 bytes

/-- Settles O48, part by part. -/
theorem onlyListedWriters : Obligations.OnlyListedWriters :=
  ⟨fun _ _ _ h => ⟨exec_key h, exec_config h, exec_index_writers h, exec_stack_writers h, exec_sp_writers h, exec_dt_writers h,
      exec_st_writers h, exec_disp_writers h, exec_mem_writers h⟩,
    fun _ => ⟨⟨_, _, rfl⟩, fun _ => ⟨_, rfl⟩, fun _ => ⟨_, rfl⟩, fun _ _ h => loadRom_changes_mem h⟩⟩

/-! The state after reset (10_state.md R36). -/

theorem reg_resetWith (cfg : Config) (r : Reg) : (State.resetWith cfg).reg r = 0 := by
  simp [State.reg, State.resetWith, Vector.get_eq_getElem]

theorem stack_resetWith (cfg : Config) (j : Fin 16) : (State.resetWith cfg).stack.get j = 0x0000 := by
  simp [State.resetWith, Vector.get_eq_getElem]

theorem key_resetWith (cfg : Config) (k : Fin 16) : (State.resetWith cfg).key.get k = false := by
  simp [State.resetWith, Vector.get_eq_getElem]

theorem readPixel_resetWith (cfg : Config) (p : Fin 2048) : readPixel (State.resetWith cfg) p = false :=
  pixelAt_clearDisplay _ _

theorem byte_resetWith (cfg : Config) (a : Nat) : (State.resetWith cfg).byte a = Memory.unlisted cfg.font a := rfl

theorem unlisted_font (font : Font) (j : Fin 80) : Memory.unlisted font (0x050 + j.val) = font.get j := by
  rw [Memory.unlisted, dif_pos (by omega)]
  congr 1
  exact Fin.ext (Nat.add_sub_cancel_left ..)

theorem unlisted_outside_font (font : Font) {a : Nat} (h : a < 0x050 ∨ 0x09F < a) : Memory.unlisted font a = 0 := by
  rw [Memory.unlisted, dif_neg (by omega)]

/-- Settles O49, row by row of 10_state.md R36. -/
theorem resetState : Obligations.ResetState :=
  ⟨rfl, fun cfg => ⟨_, rfl, reg_resetWith cfg, rfl, rfl, rfl, stack_resetWith cfg, rfl, rfl, key_resetWith cfg,
    readPixel_resetWith cfg, fun j => (byte_resetWith cfg _).trans (unlisted_font cfg.font j),
    fun _ ha => (byte_resetWith cfg _).trans (unlisted_outside_font cfg.font ha), rfl⟩⟩

end Sys2Proof.Machine
end

section
/-! PROOFS. The timers, the keypad, the display and the random input are seen by a few instructions only (10_state.md R28 to
R31, 60_exceptions.md R224): every other instruction commutes with replacing one of them. -/

namespace Sys2Proof.Machine

open Claims

/-- The parts of the state that only listed instructions read. -/
inductive Device where
  | delay | sound | keys | display | draws

/-- The instructions that read or write the device. -/
def Device.Touched (i : Instr) : Device → Prop
  | .delay => ∃ x, i = .ldVxDT x ∨ i = .ldDTVx x
  | .sound => ∃ x, i = .ldSTVx x
  | .keys => ∃ x, i = .skp x ∨ i = .sknp x ∨ i = .ldVxK x
  | .display => i = .cls ∨ ∃ x y n, i = .drw x y n
  | .draws => ∃ x nn, i = .rnd x nn

/-- `s` with the device `d` of `u`. -/
def Device.copy (d : Device) (u s : State) : State :=
  match d with
  | .delay => { s with dt := u.dt }
  | .sound => { s with st := u.st }
  | .keys => { s with key := u.key }
  | .display => { s with disp := u.disp }
  | .draws => { s with draws := u.draws }

variable (d : Device) (u s : State)

/-! What every instruction may read is not in a device. -/

@[simp] theorem copy_i : (d.copy u s).i = s.i := by cases d <;> rfl
@[simp] theorem copy_pc : (d.copy u s).pc = s.pc := by cases d <;> rfl
@[simp] theorem copy_sp : (d.copy u s).sp = s.sp := by cases d <;> rfl
@[simp] theorem copy_config : (d.copy u s).config = s.config := by cases d <;> rfl
@[simp] theorem reg_copy (r : Reg) : (d.copy u s).reg r = s.reg r := by cases d <;> rfl
@[simp] theorem byte_copy (a : Nat) : (d.copy u s).byte a = s.byte a := by cases d <;> rfl
@[simp] theorem regsUpTo_copy (x : Reg) : (d.copy u s).regsUpTo x = s.regsUpTo x := by cases d <;> rfl
@[simp] theorem bytes_copy (a n : Nat) : (d.copy u s).bytes a n = s.bytes a n := bytes_congr (byte_copy d u s) a n
@[simp] theorem shiftOperand_copy (x y : Reg) : (d.copy u s).shiftOperand x y = s.shiftOperand x y := by cases d <;> rfl
@[simp] theorem jumpTarget_copy (nnn : Addr) : (d.copy u s).jumpTarget nnn = s.jumpTarget nnn := by cases d <;> rfl
@[simp] theorem indexSum_copy (x : Reg) : (d.copy u s).indexSum x = s.indexSum x := by cases d <;> rfl

/-! What is written outside the devices commutes with replacing one. -/

@[simp] theorem copy_setReg (r : Reg) (b : Byte) : (d.copy u s).setReg r b = d.copy u (s.setReg r b) := by cases d <;> rfl
@[simp] theorem copy_setFlag (b : Bool) : (d.copy u s).setFlag b = d.copy u (s.setFlag b) := by cases d <;> rfl
@[simp] theorem copy_setI (a : Word) : (d.copy u s).setI a = d.copy u (s.setI a) := by cases d <;> rfl
@[simp] theorem copy_setPc (a : Word) : (d.copy u s).setPc a = d.copy u (s.setPc a) := by cases d <;> rfl
@[simp] theorem copy_setByte (a : Nat) (b : Byte) : (d.copy u s).setByte a b = d.copy u (s.setByte a b) := by cases d <;> rfl

@[simp] theorem copy_setResultFlag (x : Reg) (b : Byte) (f : Bool) :
    (d.copy u s).setResultFlag x b f = d.copy u (s.setResultFlag x b f) := by
  simp [State.setResultFlag]

@[simp] theorem copy_skipIf (c : Bool) : (d.copy u s).skipIf c = d.copy u (s.skipIf c) := by
  cases c <;> simp [State.skipIf]

@[simp] theorem copy_setBytes (a : Nat) (bs : List Byte) : (d.copy u s).setBytes a bs = d.copy u (s.setBytes a bs) := by
  induction bs generalizing s a with
  | nil => rfl
  | cons b bs ih => rw [State.setBytes, State.setBytes, copy_setByte, ih]

@[simp] theorem copy_setRegs (k : Nat) (bs : List Byte) : (d.copy u s).setRegs k bs = d.copy u (s.setRegs k bs) := by
  induction bs generalizing s k with
  | nil => rfl
  | cons b bs ih => rw [State.setRegs, State.setRegs, copy_setReg, ih]

/-! An outcome with a change applied to its next state. -/

@[simp] theorem mapNext_next (f : State → State) (t : State) : mapNext f (.next t) = .next (f t) := rfl
@[simp] theorem mapNext_fault (f : State → State) (e : Fault) : mapNext f (.fault e) = .fault e := rfl

/-! The instructions that can fail. -/

theorem execRet_copy : execRet (d.copy u s) = mapNext (d.copy u) (execRet s) := by
  by_cases h : 0 < s.sp.val
  · rw [execRet, execRet, popPc_ok h, popPc_ok (by simpa using h)]
    cases d <;> rfl
  · have h0 : s.sp.val = 0 := by omega
    rw [execRet, execRet, popPc_error h0, popPc_error (by rw [copy_sp, h0])]
    rfl

theorem execCall_copy (nnn : Addr) : execCall nnn (d.copy u s) = mapNext (d.copy u) (execCall nnn s) := by
  by_cases h : s.sp.val < 16
  · rw [execCall, execCall, push_ok _ h, push_ok _ (by simpa using h)]
    cases d <;> rfl
  · have h16 : s.sp.val = 16 := by omega
    rw [execCall, execCall, push_error _ h16, push_error _ (by rw [copy_sp, h16])]
    rfl

theorem memWrite_copy (a : Nat) (bs : List Byte) :
    toResult ((d.copy u s).memWrite a bs) = mapNext (d.copy u) (toResult (s.memWrite a bs)) := by
  obtain ⟨hr, he⟩ | ⟨h1, hr, he⟩ := memWrite_cases s a bs
  · rw [he, memWrite_ok hr, copy_setBytes]
    rfl
  · rw [he, memWrite_error h1 hr]
    rfl

theorem memRead_copy (a n : Nat) : (d.copy u s).memRead a n = s.memRead a n := by
  simp [State.memRead]

theorem execLdVxMem_copy (x : Reg) : execLdVxMem x (d.copy u s) = mapNext (d.copy u) (execLdVxMem x s) := by
  rw [execLdVxMem, execLdVxMem, memRead_copy, copy_i]
  cases s.memRead s.i.toNat (x.val + 1) with
  | ok bs => simp
  | error f => rfl

/-! The instructions that touch one device, seen by another. -/

variable {d}

theorem execDrw_copy (hd : d ≠ .display) (x y : Reg) (n : Fin 16) :
    execDrw x y n (d.copy u s) = mapNext (d.copy u) (execDrw x y n s) := by
  rw [execDrw, execDrw, memRead_copy, copy_i]
  cases s.memRead s.i.toNat n.val with
  | ok rows =>
    cases d with
    | display => exact absurd rfl hd
    | _ => rfl
  | error f => rfl

theorem copy_key (hd : d ≠ .keys) : (d.copy u s).key = s.key := by
  cases d with
  | keys => exact absurd rfl hd
  | _ => rfl

theorem keyDown_copy (hd : d ≠ .keys) (x : Reg) : (d.copy u s).keyDown x = s.keyDown x := by
  simp [State.keyDown, copy_key u s hd]

theorem execLdVxK_copy (hd : d ≠ .keys) (x : Reg) : execLdVxK x (d.copy u s) = mapNext (d.copy u) (execLdVxK x s) := by
  have hk : (d.copy u s).lowestKey = s.lowestKey := by simp [State.lowestKey, copy_key u s hd]
  rw [execLdVxK, execLdVxK, hk]
  cases s.lowestKey with
  | none => simp
  | some k => simp

/-- An instruction that does not touch the device answers the same, with the other content of the device kept. -/
theorem exec_copy {i : Instr} (hi : ¬d.Touched i) : exec i (d.copy u s) = mapNext (d.copy u) (exec i s) := by
  have hne : ∀ {e : Device}, e.Touched i → d ≠ e := fun he hd => hi (hd ▸ he)
  cases i with
  | cls =>
    cases d with
    | display => exact absurd (.inl rfl) hi
    | _ => rfl
  | rnd x nn =>
    cases d with
    | draws => exact absurd ⟨x, nn, rfl⟩ hi
    | _ => rfl
  | ldVxDT x =>
    cases d with
    | delay => exact absurd ⟨x, .inl rfl⟩ hi
    | _ => rfl
  | ldDTVx x =>
    cases d with
    | delay => exact absurd ⟨x, .inr rfl⟩ hi
    | _ => rfl
  | ldSTVx x =>
    cases d with
    | sound => exact absurd ⟨x, rfl⟩ hi
    | _ => rfl
  | drw x y n => exact execDrw_copy u s (hne (e := .display) (.inr ⟨x, y, n, rfl⟩)) x y n
  | ldVxK x => exact execLdVxK_copy u s (hne (e := .keys) ⟨x, .inr (.inr rfl)⟩) x
  | skp x => simp [exec, execSkp, keyDown_copy u s (hne (e := .keys) ⟨x, .inl rfl⟩)]
  | sknp x => simp [exec, execSknp, keyDown_copy u s (hne (e := .keys) ⟨x, .inr (.inl rfl)⟩)]
  | ret => exact execRet_copy d u s
  | call nnn => exact execCall_copy d u s nnn
  | ldB x => simpa [exec, execLdB] using memWrite_copy d u s s.i.toNat (decimalDigits (s.reg x))
  | ldMemVx x => simpa [exec, execLdMemVx] using memWrite_copy d u s s.i.toNat (s.regsUpTo x)
  | ldVxMem x => exact execLdVxMem_copy d u s x
  | jp _ | jpV0 _ => simp [exec, execJp, execJpV0]
  | seImm _ _ | sneImm _ _ | seReg _ _ | sneReg _ _ => simp [exec, execSeImm, execSneImm, execSeReg, execSneReg]
  | ldImm _ _ | addImm _ _ | ldReg _ _ => simp [exec, execLdImm, execAddImm, execLdReg]
  | orReg _ _ | andReg _ _ | xorReg _ _ => simp [exec, execOrReg, execAndReg, execXorReg]
  | addReg _ _ | sub _ _ | subn _ _ => simp [exec, execAddReg, execSub, execSubn]
  | shr _ _ | shl _ _ => simp [exec, execShr, execShl]
  | ldI _ | addI _ | ldF _ => simp [exec, execLdI, execAddI, execLdF]

/-- Settles O59: `ST` is the device no instruction but FX18 touches. -/
theorem soundTimerIsNeverRead : Obligations.SoundTimerIsNeverRead :=
  fun _ s b hi => exec_copy (d := .sound) (s.setSt b) s fun ⟨x, hx⟩ => hi x hx

/-- Settles O60, device by device. -/
theorem timerKeypadDisplayReaders : Obligations.TimerKeypadDisplayReaders := by
  intro i s
  refine ⟨fun b hi => ?_, fun ks hi => ?_, fun disp hcls hdrw => ?_, fun n hi => ?_⟩
  · refine exec_copy (d := .delay) (s.setDt b) s ?_
    rintro ⟨x, hx | hx⟩
    · exact (hi x).1 hx
    · exact (hi x).2 hx
  · refine exec_copy (d := .keys) { s with key := ks } s ?_
    rintro ⟨x, hx | hx | hx⟩
    · exact (hi x).1 hx
    · exact (hi x).2.1 hx
    · exact (hi x).2.2 hx
  · refine exec_copy (d := .display) (s.setDisp disp) s ?_
    rintro (hx | ⟨x, y, n, hx⟩)
    · exact hcls hx
    · exact hdrw x y n hx
  · exact exec_copy (d := .draws) { s with draws := n } s fun ⟨x, nn, hx⟩ => hi x nn hx

end Sys2Proof.Machine
end

section
/-! PROOFS. A word that decodes matches its instruction's row of the opcode table, so a word that matches none is rejected
(30_encoding.md R76, R78). -/

namespace Sys2Proof

variable {w : Word} {i : Instr}

/-- The row of an instruction: the constructors of `Instr` stand in the order of the opcode table. -/
def tableRow (i : Instr) : Word × Word :=
  opcodeTable.getD i.ctorIdx (0, 0)

theorem tableRow_mem (i : Instr) : tableRow i ∈ opcodeTable := by
  have hi : i.ctorIdx < opcodeTable.length := by cases i <;> exact of_decide_eq_true rfl
  rw [tableRow, List.getD_eq_getElem _ _ hi]
  exact List.getElem_mem hi

/-- The cases are the families of `dispatch`, `h_1` for family 0 up to `h_16` for family F: families 0, E and F look at `nn`,
family 8 at `n`, every other one at nothing more. -/
theorem dispatch_matches_tableRow (h : dispatch (fieldsOf w) = some i) : w &&& (tableRow i).1 = (tableRow i).2 := by
  unfold dispatch at h
  split at h
  case h_1 hop | h_15 hop | h_16 hop =>
    split at h <;> cases h <;> dsimp only [tableRow, Instr.ctorIdx] <;> exact (mask_F0FF w _ rfl).2 ⟨hop, ‹_›⟩
  case h_9 hop =>
    split at h <;> cases h <;> dsimp only [tableRow, Instr.ctorIdx] <;> exact (mask_F00F w _ rfl).2 ⟨hop, ‹_›⟩
  case h_17 => cases h
  all_goals
    next hop => cases h; dsimp only [tableRow, Instr.ctorIdx]; exact (mask_F000 w _ rfl).2 hop

theorem decodeWord_of_no_row (h : ∀ row ∈ opcodeTable, w &&& row.1 ≠ row.2) : decodeWord w = .error (.unknown w) := by
  unfold decodeWord
  cases hd : dispatch (fieldsOf w) with
  | none => rfl
  | some i => exact absurd (dispatch_matches_tableRow hd) (h _ (tableRow_mem i))

theorem ofNat_bytes (hi lo : Byte) : BitVec.ofNat 16 (hi.toNat * 256 + lo.toNat) = wordOfBytes hi lo := by
  rw [← toNat_wordOfBytes, BitVec.ofNat_toNat, BitVec.setWidth_eq]

end Sys2Proof
end

section
/-! PROOFS. The word a step fetches (20_memory.md R56, R63): what FX55 has just stored there, and the errors that come before
execution (60_exceptions.md R209). -/

namespace Sys2Proof.Machine

variable {s t : State}

/-! What FX55 leaves in memory (42_index_memory.md R145). -/

theorem execLdMemVx_next {x : Reg} (h : exec (.ldMemVx x) s = .next t) :
    s.i.toNat + (x.val + 1) ≤ 4096 ∧ t = s.setBytes s.i.toNat (s.regsUpTo x) := by
  simpa using memWrite_next (by simp) h

theorem byte_stored_reg {x k : Reg} (hs : s.memWf) (hr : s.i.toNat + (x.val + 1) ≤ 4096) (hk : k.val ≤ x.val) :
    (s.setBytes s.i.toNat (s.regsUpTo x)).byte (s.i.toNat + k.val) = s.reg k := by
  have hin : s.i.toNat ≤ s.i.toNat + k.val ∧ s.i.toNat + k.val < s.i.toNat + (s.regsUpTo x).length := by
    rw [length_regsUpTo]
    omega
  rw [byte_setBytes hs (by simpa using hr), dif_pos hin, getElem_regsUpTo]
  simp

theorem wordAt_stored_regs {x k : Reg} (hs : s.memWf) (hr : s.i.toNat + (x.val + 1) ≤ 4096) (hk : k.val < x.val) :
    (s.setBytes s.i.toNat (s.regsUpTo x)).wordAt (s.i.toNat + k.val) = wordOfBytes (s.reg k) (s.reg (k + 1)) := by
  have hsucc : (k + 1).val = k.val + 1 := Fin.val_add_one_of_lt (lt_of_lt_of_le hk (Fin.le_last x))
  rw [State.wordAt, byte_stored_reg hs hr hk.le, Nat.add_assoc, ← hsucc, byte_stored_reg hs hr (by omega)]

/-- Settles O34: `PC` stands below the last stored byte, so the fetch is in range and reads the two registers. -/
theorem nextFetchSeesStore : Obligations.NextFetchSeesStore := by
  intro x k s t hs h hk hpc i hd
  have hkx : k.val < x.val := hk
  obtain ⟨hr, rfl⟩ := execLdMemVx_next h
  refine step_eq_exec (by omega) ?_
  rw [hpc, wordAt_stored_regs hs hr hkx, ← ofNat_bytes]
  exact hd

/-! The errors of a step before execution. -/

theorem step_fetch_error (h : 4095 ≤ s.pc.toNat) : step s = .fault (.memoryOutOfBounds (max s.pc.toNat 4096)) := by
  simp only [step, fetch_error h]

theorem step_decode_error {e : DecodeError} (hp : s.pc.toNat ≤ 4094) (h : decodeWord (s.wordAt s.pc.toNat) = .error e) :
    step s = .fault (.unknownInstruction (s.wordAt s.pc.toNat)) := by
  simp only [step, fetch_ok hp, h, unknownWord]

/-- Settles O7: the fetch fails from 4095 on; below, a word that matches no row fails in the decoder. -/
theorem stepErrorsBeforeExecution : Obligations.StepErrorsBeforeExecution := by
  refine fun s => ⟨step_fetch_error, fun hp w hw hno => ?_⟩
  obtain rfl : w = s.wordAt s.pc.toNat := hw.trans (ofNat_bytes _ _)
  exact step_decode_error hp (decodeWord_of_no_row hno)

end Sys2Proof.Machine
end

section
/-! PROOFS. The fields of a word by arithmetic (30_encoding.md R71). -/

namespace Sys2Proof

/-- Settles O2: a slice from bit `k` on is a quotient by `2 ^ k`; the overlaps are `nn_eq` and `nnn_eq`. -/
theorem fieldsAreBitSlices : Obligations.FieldsAreBitSlices := by
  intro w
  have hw : w.toNat < 65536 := w.isLt
  have hop : (fieldsOf w).op.toNat = w.toNat / 4096 % 16 := by simp [fieldsOf, Nat.shiftRight_eq_div_pow]
  have hx : (fieldsOf w).x.toNat = w.toNat / 256 % 16 := by simp [fieldsOf, Nat.shiftRight_eq_div_pow]
  have hy : (fieldsOf w).y.toNat = w.toNat / 16 % 16 := by simp [fieldsOf, Nat.shiftRight_eq_div_pow]
  have hover : (fieldsOf w).wellFormed = true := by
    simp [Fields.wellFormed, Fields.byteConsistent, Fields.addrConsistent, nn_eq, nnn_eq]
  exact ⟨by omega, hx, hy, by simp [fieldsOf], by simp [fieldsOf], by simp [fieldsOf], hover⟩

end Sys2Proof
end

section
/-! PROOFS. The round trip between instructions and words (30_encoding.md R73 to R76, R79). -/

namespace Sys2Proof

variable {w : Word} {i : Instr}

/-! Decoding what the encoder emits. -/

/-- The cases are the formats of 30_encoding.md R73: A, then XB (with X and Z), then XYN (with XY). -/
theorem dispatch_encode (i : Instr) : dispatch (fieldsOf (encode i)) = some i := by
  cases i with
  | jp _ | call _ | ldI _ | jpV0 _ => simp [encode, dispatch]
  | cls | ret | seImm _ _ | sneImm _ _ | ldImm _ _ | addImm _ _ | rnd _ _ | skp _ | sknp _ | ldVxDT _ | ldVxK _
  | ldDTVx _ | ldSTVx _ | addI _ | ldF _ | ldB _ | ldMemVx _ | ldVxMem _ => simp [encode, dispatch]
  | seReg _ _ | ldReg _ _ | orReg _ _ | andReg _ _ | xorReg _ _ | addReg _ _ | sub _ _ | shr _ _ | subn _ _ | shl _ _
  | sneReg _ _ | drw _ _ _ => simp [encode, dispatch]

theorem decodeWord_eq_ok_iff : decodeWord w = .ok i ↔ dispatch (fieldsOf w) = some i := by
  unfold decodeWord
  cases dispatch (fieldsOf w) <;> simp

theorem decodeWord_encode (i : Instr) : decodeWord (encode i) = .ok i :=
  decodeWord_eq_ok_iff.2 (dispatch_encode i)

theorem decode_encodeBytes_append (i : Instr) (rest : List Byte) : decode (encodeBytes i ++ rest) = .ok (i, rest) := by
  simp [encodeBytes, decode, decodeWord_encode]

/-- Settles O3, on the word and on its two bytes. -/
theorem decodeOfEncode : Obligations.DecodeOfEncode :=
  fun i rest => ⟨decodeWord_encode i, decode_encodeBytes_append i rest⟩

/-- Settles O1: the decoder is evaluated on each of the nineteen words. -/
theorem sampleWordsDecode : Obligations.SampleWordsDecode := by
  unfold Obligations.SampleWordsDecode
  decide

/-! Encoding what the decoder accepts. -/

/-- The bits of a word of family `op` that are examined (30_encoding.md R79). -/
def examinedBits (op : BitVec 4) : Word :=
  if op = 0x0 then 0xF0FF else if op = 0x5 ∨ op = 0x9 then 0xFFF0 else 0xFFFF

theorem shiftRight_twelve (w : Word) : w >>> 12 = (fieldsOf w).op.setWidth 16 := by
  apply BitVec.eq_of_toNat_eq
  have hw : w.toNat / 4096 < 65536 := by omega
  simp [fieldsOf, Nat.shiftRight_eq_div_pow]
  omega

theorem examinedBits_op (w : Word) : examinedBits (fieldsOf w).op =
    if w >>> 12 = 0x0 then 0xF0FF else if w >>> 12 = 0x5 ∨ w >>> 12 = 0x9 then 0xFFF0 else 0xFFFF := by
  rw [shiftRight_twelve]
  generalize (fieldsOf w).op = op
  revert op
  decide

theorem and_examinedBits_of_full {op : BitVec 4} (h : examinedBits op = 0xFFFF) (w : Word) : w &&& examinedBits op = w := by
  rw [h]
  exact BitVec.and_allOnes

theorem formatXYN_zero_fields (w : Word) :
    formatXYN (fieldsOf w).op (fieldsOf w).x.toFin (fieldsOf w).y.toFin 0x0#4 = w &&& 0xFFF0 := by
  have ho : (fieldsOf 0xFFF0).op = 0xF#4 := by decide
  have hx : (fieldsOf 0xFFF0).x = 0xF#4 := by decide
  have hy : (fieldsOf 0xFFF0).y = 0xF#4 := by decide
  have hn : (fieldsOf 0xFFF0).n = 0x0#4 := by decide
  apply word_ext
  · rw [op_formatXYN, op_and, ho, and_ones]
  · rw [x_formatXYN, x_and, hx, and_ones]
  · rw [y_formatXYN, y_and, hy, and_ones]
  · rw [n_formatXYN, n_and, hn, and_none]

/-- The cases are the families of `dispatch`, `h_1` for family 0 up to `h_16` for family F: every bit of a word is examined
but in family 0, whose two instructions have one encoding each, and in families 5 and 9, which do not look at `n`. -/
theorem encode_of_dispatch (h : dispatch (fieldsOf w) = some i) : encode i = w &&& examinedBits (fieldsOf w).op := by
  unfold dispatch at h
  split at h
  case h_1 hop =>
    rw [hop]
    split at h <;> cases h <;> exact Eq.symm ((mask_F0FF w _ rfl).2 ⟨hop, ‹_›⟩)
  case h_6 hop | h_10 hop =>
    cases h
    rw [encode, ← hop, formatXYN_zero_fields, hop]
    rfl
  case h_2 hop | h_3 hop | h_11 hop | h_12 hop =>
    cases h
    rw [and_examinedBits_of_full (by rw [hop]; rfl), encode, ← hop, formatA_fields]
  case h_4 hop | h_5 hop | h_7 hop | h_8 hop | h_13 hop =>
    cases h
    rw [and_examinedBits_of_full (by rw [hop]; rfl), encode, ← hop, formatXB_fields]
  case h_14 hop =>
    cases h
    rw [and_examinedBits_of_full (by rw [hop]; rfl), encode, ← hop]
    exact formatXYN_fields w
  case h_9 hop =>
    rw [and_examinedBits_of_full (by rw [hop]; rfl)]
    split at h <;> cases h
    all_goals
      next hn => rw [encode, ← hop, ← hn, formatXYN_fields]
  case h_15 hop | h_16 hop =>
    rw [and_examinedBits_of_full (by rw [hop]; rfl)]
    split at h <;> cases h
    all_goals
      next hnn => rw [encode, ← hop, ← hnn, formatXB_fields]
  case h_17 => cases h

theorem encode_of_decodeWord (h : decodeWord w = .ok i) : encode i = w &&& examinedBits (fieldsOf w).op :=
  encode_of_dispatch (decodeWord_eq_ok_iff.1 h)

/-- Settles O4: the statement's mask is `examinedBits` of the family. -/
theorem encodeOfDecode : Obligations.EncodeOfDecode := by
  intro w i h
  rw [encode_of_decodeWord h, examinedBits_op]

end Sys2Proof
end

section
/-! PROOFS. The opcode table decides decoding: a word dispatches to an instruction of a row exactly when it matches the row
(30_encoding.md R76, R78). -/

namespace Sys2Proof

variable {w : Word} {i : Instr}

/-- The cases are the masks of the table: `nn` discriminates, then `n`, then nothing but the family. -/
theorem map_tableRow_dispatch_of_matches (h : w &&& (tableRow i).1 = (tableRow i).2) :
    (dispatch (fieldsOf w)).map tableRow = some (tableRow i) := by
  cases i with
  | cls | ret | skp _ | sknp _ | ldVxDT _ | ldVxK _ | ldDTVx _ | ldSTVx _ | addI _ | ldF _ | ldB _ | ldMemVx _ | ldVxMem _ =>
    dsimp only [tableRow, Instr.ctorIdx] at h ⊢
    obtain ⟨hop, hnn⟩ := (mask_F0FF w _ rfl).1 h
    unfold dispatch
    rw [hop, hnn]
    rfl
  | ldReg _ _ | orReg _ _ | andReg _ _ | xorReg _ _ | addReg _ _ | sub _ _ | shr _ _ | subn _ _ | shl _ _ =>
    dsimp only [tableRow, Instr.ctorIdx] at h ⊢
    obtain ⟨hop, hn⟩ := (mask_F00F w _ rfl).1 h
    unfold dispatch
    rw [hop, hn]
    rfl
  | _ =>
    dsimp only [tableRow, Instr.ctorIdx] at h ⊢
    have hop := (mask_F000 w _ rfl).1 h
    unfold dispatch
    rw [hop]
    rfl

/-- Each row's pattern is itself an instruction of the row. -/
theorem map_dispatch_opcodeTable :
    opcodeTable.map (fun row => (dispatch (fieldsOf row.2)).map tableRow) = opcodeTable.map some := rfl

theorem exists_tableRow_eq {row : Word × Word} (h : row ∈ opcodeTable) : ∃ i, tableRow i = row := by
  obtain ⟨i, -, hi⟩ := Option.map_eq_some_iff.1 (List.map_inj_left.1 map_dispatch_opcodeTable row h)
  exact ⟨i, hi⟩

theorem map_tableRow_dispatch_iff {row : Word × Word} :
    (dispatch (fieldsOf w)).map tableRow = some row ↔ row ∈ opcodeTable ∧ w &&& row.1 = row.2 := by
  constructor
  · intro h
    obtain ⟨i, hi, rfl⟩ := Option.map_eq_some_iff.1 h
    exact ⟨tableRow_mem i, dispatch_matches_tableRow hi⟩
  · rintro ⟨hmem, h⟩
    obtain ⟨i, rfl⟩ := exists_tableRow_eq hmem
    exact map_tableRow_dispatch_of_matches h

theorem decodes_iff_matches : (∃ i, decodeWord w = .ok i) ↔ ∃ row ∈ opcodeTable, w &&& row.1 = row.2 := by
  simp only [decodeWord_eq_ok_iff, ← map_tableRow_dispatch_iff, Option.map_eq_some_iff]
  simp

theorem row_unique {r r' : Word × Word} (hr : r ∈ opcodeTable) (hr' : r' ∈ opcodeTable) (h : w &&& r.1 = r.2)
    (h' : w &&& r'.1 = r'.2) : r = r' :=
  Option.some.inj ((map_tableRow_dispatch_iff.2 ⟨hr, h⟩).symm.trans (map_tableRow_dispatch_iff.2 ⟨hr', h'⟩))

theorem nodup_opcodeTable : opcodeTable.Nodup := by decide

theorem length_filter_matchesRow (w : Word) : (opcodeTable.filter (matchesRow w)).length ≤ 1 := by
  rw [← List.toFinset_card_of_nodup (nodup_opcodeTable.filter _), Finset.card_le_one]
  intro r hr r' hr'
  simp only [List.mem_toFinset, List.mem_filter, matchesRow, beq_iff_eq] at hr hr'
  exact row_unique hr.1 hr'.1 hr.2 hr'.2

/-- Settles O5: the row a word matches is that of its instruction, so there is one if and only if the word decodes, and at
most one. -/
theorem opcodeTableDecidesDecoding : Obligations.OpcodeTableDecidesDecoding :=
  ⟨fun _ => decodes_iff_matches, length_filter_matchesRow, fun _ => decodeWord_of_no_row⟩

end Sys2Proof
end

section
/-! PROOFS. The operands of a word by arithmetic (30_encoding.md R71), and the words of the control-flow instructions (R76). -/

namespace Sys2Proof.Claims

variable {i : Word → Instr} {mask matched : Word}

/-! The operands the decoder takes are those the statements name. -/

theorem wordX_eq (w : Word) : wordX w = (fieldsOf w).x.toFin := by
  apply Fin.ext
  simp [wordX, fieldsOf, Nat.shiftRight_eq_div_pow]

theorem wordY_eq (w : Word) : wordY w = (fieldsOf w).y.toFin := by
  apply Fin.ext
  simp [wordY, fieldsOf, Nat.shiftRight_eq_div_pow]

theorem wordNN_eq (w : Word) : wordNN w = (fieldsOf w).nn := rfl

theorem wordNNN_eq (w : Word) : wordNNN w = (fieldsOf w).nnn := rfl

/-! Rows of the opcode table. -/

/-- A word that decodes matches the row of its instruction, so only the words that match have to be dispatched. -/
theorem encoded_of_dispatch (hrow : ∀ w, tableRow (i w) = (mask, matched))
    (hd : ∀ w, w &&& mask = matched → dispatch (fieldsOf w) = some (i w)) : Encoded mask matched i := by
  refine fun w => ⟨fun hm => decodeWord_eq_ok_iff.2 (hd w hm), fun h => ?_⟩
  have hmatch := dispatch_matches_tableRow (decodeWord_eq_ok_iff.1 h)
  rwa [hrow] at hmatch

/-- A row whose mask keeps the family alone. -/
theorem encoded_of_family (hrow : ∀ w, tableRow (i w) = (0xF000, matched)) (hm : matched &&& 0xF000 = matched)
    (hd : ∀ w, (fieldsOf w).op = (fieldsOf matched).op → dispatch (fieldsOf w) = some (i w)) : Encoded 0xF000 matched i :=
  encoded_of_dispatch hrow fun w hw => hd w ((mask_F000 w matched hm).1 hw)

/-- A row whose mask keeps the family and `nn`. -/
theorem encoded_of_family_nn (hrow : ∀ w, tableRow (i w) = (0xF0FF, matched)) (hm : matched &&& 0xF0FF = matched)
    (hd : ∀ w, (fieldsOf w).op = (fieldsOf matched).op → (fieldsOf w).nn = (fieldsOf matched).nn →
      dispatch (fieldsOf w) = some (i w)) : Encoded 0xF0FF matched i :=
  encoded_of_dispatch hrow fun w hw => ((mask_F0FF w matched hm).1 hw).elim (hd w)

theorem encoded_ret : Encoded 0xF0FF 0x00EE fun _ => .ret :=
  encoded_of_family_nn (fun _ => rfl) rfl fun w hop hnn => by rw [dispatch, hop, hnn]; rfl

theorem encoded_jp : Encoded 0xF000 0x1000 fun w => .jp (wordNNN w) :=
  encoded_of_family (fun _ => rfl) rfl fun w hop => by rw [dispatch, hop, wordNNN_eq]; rfl

theorem encoded_call : Encoded 0xF000 0x2000 fun w => .call (wordNNN w) :=
  encoded_of_family (fun _ => rfl) rfl fun w hop => by rw [dispatch, hop, wordNNN_eq]; rfl

theorem encoded_jpV0 : Encoded 0xF000 0xB000 fun w => .jpV0 (wordNNN w) :=
  encoded_of_family (fun _ => rfl) rfl fun w hop => by rw [dispatch, hop, wordNNN_eq]; rfl

theorem encoded_seImm : Encoded 0xF000 0x3000 fun w => .seImm (wordX w) (wordNN w) :=
  encoded_of_family (fun _ => rfl) rfl fun w hop => by rw [dispatch, hop, wordX_eq, wordNN_eq]; rfl

theorem encoded_sneImm : Encoded 0xF000 0x4000 fun w => .sneImm (wordX w) (wordNN w) :=
  encoded_of_family (fun _ => rfl) rfl fun w hop => by rw [dispatch, hop, wordX_eq, wordNN_eq]; rfl

theorem encoded_seReg : Encoded 0xF000 0x5000 fun w => .seReg (wordX w) (wordY w) :=
  encoded_of_family (fun _ => rfl) rfl fun w hop => by rw [dispatch, hop, wordX_eq, wordY_eq]; rfl

theorem encoded_sneReg : Encoded 0xF000 0x9000 fun w => .sneReg (wordX w) (wordY w) :=
  encoded_of_family (fun _ => rfl) rfl fun w hop => by rw [dispatch, hop, wordX_eq, wordY_eq]; rfl

end Sys2Proof.Claims
end

section
/-! PROOFS. Control flow (40_control_flow.md): what each instruction leaves in `PC` and on the call stack, with its frame. -/

namespace Sys2Proof.Machine

open Claims

variable {s t : State}

/-! The frame of the updates. -/

@[simp] theorem popped_draws (h : 0 < s.sp.val) : (s.popped h).draws = s.draws := rfl
@[simp] theorem byte_popped (h : 0 < s.sp.val) (a : Nat) : (s.popped h).byte a = s.byte a := rfl
@[simp] theorem pushed_draws (a : Word) (h : s.sp.val < 16) : (s.pushed a h).draws = s.draws := rfl
@[simp] theorem byte_pushed (a : Word) (h : s.sp.val < 16) (q : Nat) : (s.pushed a h).byte q = s.byte q := rfl

theorem unchanged_setPc (s : State) (a : Word) : Unchanged [] [.pc] s (s.setPc a) := by simp [Unchanged]

theorem unchanged_skipIf (s : State) (c : Bool) : Unchanged [] [.pc] s (s.skipIf c) := by simp [Unchanged]

theorem unchanged_popped (h : 0 < s.sp.val) : Unchanged [] [.pc, .stack] s (s.popped h) := by simp [Unchanged]

theorem unchanged_pushed_setPc (a b : Word) (h : s.sp.val < 16) :
    Unchanged [] [.pc, .stack] s ((s.pushed a h).setPc b) := by simp [Unchanged]

/-! Jumps. -/

/-- Settles O11. -/
theorem jumpSetsProgramCounter : Obligations.JumpSetsProgramCounter :=
  ⟨encoded_jp, fun nnn s => ⟨_, rfl, toNat_zext16 nnn, unchanged_setPc s _⟩⟩

/-- The sum of BNNN fits into 16 bits (40_control_flow.md R103). -/
theorem toNat_jumpTarget (s : State) (nnn : Addr) :
    (s.jumpTarget nnn).toNat = nnn.toNat + (s.reg (s.jumpRegister nnn)).toNat := by
  have hn := nnn.isLt
  have hr := (s.reg (s.jumpRegister nnn)).isLt
  rw [State.jumpTarget, BitVec.toNat_ofNat]
  omega

theorem jumpRegister_v0 (h : s.config.jumpMode = .v0) (nnn : Addr) : s.jumpRegister nnn = 0 := by
  rw [State.jumpRegister, h]

theorem jumpRegister_vx (h : s.config.jumpMode = .vx) (nnn : Addr) :
    s.jumpRegister nnn = Fin.ofNat 16 (nnn.toNat / 256) := by
  rw [State.jumpRegister, h]
  rfl

/-- Settles O13: the two modes differ in the register alone. -/
theorem jumpWithOffset : Obligations.JumpWithOffset := by
  refine ⟨encoded_jpV0, fun nnn s => ⟨_, rfl, unchanged_setPc s _, fun h => ?_, fun h => ?_⟩⟩
  · rw [setPc_pc, toNat_jumpTarget, jumpRegister_v0 h]
  · rw [setPc_pc, toNat_jumpTarget, jumpRegister_vx h]

/-! Skips. -/

theorem skipIf_beq_pc (s : State) (a b : Byte) : (s.skipIf (a == b)).pc = if a = b then s.pc + 2 else s.pc := by simp

theorem skipIf_bne_pc (s : State) (a b : Byte) : (s.skipIf (a != b)).pc = if a = b then s.pc else s.pc + 2 := by simp

/-- Settles O14. -/
theorem skipsOnImmediate : Obligations.SkipsOnImmediate :=
  ⟨encoded_seImm, encoded_sneImm, fun x nn s =>
    ⟨⟨_, rfl, skipIf_beq_pc s (s.reg x) nn, unchanged_skipIf s _⟩,
      ⟨_, rfl, skipIf_bne_pc s (s.reg x) nn, unchanged_skipIf s _⟩⟩⟩

/-- Settles O15. -/
theorem skipsOnRegisters : Obligations.SkipsOnRegisters :=
  ⟨encoded_seReg, encoded_sneReg, fun x y s =>
    ⟨⟨_, rfl, skipIf_beq_pc s (s.reg x) (s.reg y), unchanged_skipIf s _⟩,
      ⟨_, rfl, skipIf_bne_pc s (s.reg x) (s.reg y), unchanged_skipIf s _⟩⟩⟩

/-! Return and call. -/

theorem exec_ret_ok (h : 0 < s.sp.val) : exec .ret s = .next (s.popped h) := by
  rw [exec, execRet, popPc_ok h]
  rfl

theorem exec_ret_underflow (h : s.sp.val = 0) : exec .ret s = .fault .stackUnderflow := by
  rw [exec, execRet, popPc_error h]
  rfl

theorem exec_call_ok (nnn : Addr) (h : s.sp.val < 16) : exec (.call nnn) s = .next ((s.pushed s.pc h).setPc (zext16 nnn)) := by
  rw [exec, execCall, push_ok s.pc h]
  rfl

theorem exec_call_overflow (nnn : Addr) (h : s.sp.val = 16) : exec (.call nnn) s = .fault .stackOverflow := by
  rw [exec, execCall, push_error s.pc h]

theorem popped_sp (h : 0 < s.sp.val) : (s.popped h).sp.val = s.sp.val - 1 := rfl

theorem popped_pc {n : Fin 16} (hn : s.sp.val = n.val + 1) (h : 0 < s.sp.val) : (s.popped h).pc = s.stack.get n :=
  congrArg s.stack.get (Fin.ext (by simp [hn]))

theorem get_pushed_stack (a : Word) (h : s.sp.val < 16) (j : Fin 16) :
    (s.pushed a h).stack.get j = if j.val = s.sp.val then a else s.stack.get j := by
  simp only [State.pushed, Vector.get_eq_getElem, Vector.getElem_set, eq_comm]

/-- Settles O10. -/
theorem returnPopsProgramCounter : Obligations.ReturnPopsProgramCounter := by
  refine ⟨encoded_ret, fun s => ⟨exec_ret_underflow, fun n hn => ?_⟩⟩
  have h : 0 < s.sp.val := by omega
  exact ⟨s.popped h, exec_ret_ok h, by rw [popped_sp, hn]; rfl, popped_pc hn h, fun _ => rfl, unchanged_popped h⟩

/-- Settles O12. -/
theorem callPushesReturnAddress : Obligations.CallPushesReturnAddress := by
  refine ⟨encoded_call, fun nnn s => ⟨exec_call_overflow nnn, fun n hn => ?_⟩⟩
  have h : s.sp.val < 16 := by omega
  refine ⟨_, exec_call_ok nnn h, congrArg (· + 1) hn, ?_, fun j hj => ?_, toNat_zext16 nnn, unchanged_pushed_setPc _ _ h⟩
  · rw [setPc_stack, get_pushed_stack, if_pos hn.symm]
  · rw [setPc_stack, get_pushed_stack, if_neg (by omega)]

/-! The live entries of the call stack between a call and its return (40_control_flow.md R109). -/

/-- A call writes the entry at `SP`, so no entry below it. -/
theorem exec_keeps_live_entry {i : Instr} {j : Fin 16} (hj : j.val < s.sp.val) (h : exec i s = .next t) :
    t.stack.get j = s.stack.get j := by
  cases exec_effect h with
  | call nnn hs _ => rw [setPc_stack, get_pushed_stack, if_neg (by omega)]
  | _ => simp

theorem step_keeps_live_entry {j : Fin 16} (hj : j.val < s.sp.val) (h : step s = .next t) : t.stack.get j = s.stack.get j := by
  obtain ⟨-, i, -, hi⟩ := step_next_cases h
  exact exec_keeps_live_entry (s := s.setPc (s.pc + 2)) hj hi

theorem afterError_stack (s : State) : s.afterError.stack = s.stack := by
  unfold State.afterError
  split <;> rfl

/-- Of the commands only `Reset` overwrites a live entry. -/
theorem perform_keeps_live_entry {c : Command} {j : Fin 16} (hc : c ≠ .reset) (hj : j.val < s.sp.val) :
    (perform c s).1.stack.get j = s.stack.get j := by
  cases c with
  | reset => exact absurd rfl hc
  | loadRom bytes =>
    simp only [perform]
    split
    · next hl =>
      obtain ⟨-, rfl⟩ := loadRom_next hl
      rw [setBytes_stack]
    · rfl
    · rfl
  | step =>
    simp only [perform]
    split
    · next hs => exact step_keeps_live_entry hj hs
    · rw [afterError_stack]
    · rfl
  | tick | keyPress _ | keyRelease _ | readPixel _ => rfl

theorem performAll_keeps_live_entry {d : Nat} {cs : List Command} {j : Fin 16} (hk : DepthKept d cs s) (hd : d ≤ s.sp.val)
    (hj : j.val < d) : (performAll cs s).1.stack.get j = s.stack.get j := by
  induction cs generalizing s with
  | nil => rfl
  | cons c cs ih =>
    obtain ⟨hc, -, hd', hk'⟩ := hk
    exact (ih hk' hd').trans (perform_keeps_live_entry hc (by omega))

/-- Settles O16: the entry the call pushed stays live, so the return finds it. -/
theorem callThenReturnComesBack : Obligations.CallThenReturnComesBack := by
  intro nnn s t cs hcall hk hsp
  obtain ⟨hs, rfl⟩ := execCall_next hcall
  obtain ⟨u, hret, husp, hupc, -⟩ := (returnPopsProgramCounter.2 _).2 ⟨s.sp.val, hs⟩ (congrArg Fin.val hsp)
  refine ⟨u, hret, ?_, Fin.ext husp⟩
  rw [hupc, performAll_keeps_live_entry hk le_rfl (Nat.lt_succ_self _), setPc_stack, get_pushed_stack, if_pos rfl]

end Sys2Proof.Machine
end

section
/-! PROOFS. The words of the register instructions (30_encoding.md R73, R76): where an encoding has no don't-care bits, a word
of the row is the encoding of the instruction it names. -/

namespace Sys2Proof.Claims

variable {matched : Word}

theorem dispatch_of_encode_eq {w : Word} {i : Instr} (h : encode i = w) : dispatch (fieldsOf w) = some i :=
  h ▸ dispatch_encode i

/-- A row of format XB: the mask keeps the family, `x` and `nn` are operands. -/
theorem encoded_of_formatXB {c : Reg → Byte → Instr} (hrow : ∀ x nn, tableRow (c x nn) = (0xF000, matched))
    (hm : matched &&& 0xF000 = matched) (hc : ∀ x nn, encode (c x nn) = formatXB (fieldsOf matched).op x nn) :
    Encoded 0xF000 matched fun w => c (wordX w) (wordNN w) :=
  encoded_of_family (fun _ => hrow _ _) hm fun w hop =>
    dispatch_of_encode_eq (by rw [hc, ← hop, wordX_eq, wordNN_eq, formatXB_fields])

/-- A row of format XY: the mask keeps the family and `n`, `x` and `y` are operands. -/
theorem encoded_of_formatXYN {c : Reg → Reg → Instr} (hrow : ∀ x y, tableRow (c x y) = (0xF00F, matched))
    (hm : matched &&& 0xF00F = matched)
    (hc : ∀ x y, encode (c x y) = formatXYN (fieldsOf matched).op x y (fieldsOf matched).n) :
    Encoded 0xF00F matched fun w => c (wordX w) (wordY w) := by
  refine encoded_of_dispatch (fun _ => hrow _ _) fun w hw => dispatch_of_encode_eq ?_
  obtain ⟨hop, hn⟩ := (mask_F00F w matched hm).1 hw
  rw [hc, ← hop, ← hn, wordX_eq, wordY_eq, formatXYN_fields]

theorem encoded_ldImm : Encoded 0xF000 0x6000 fun w => .ldImm (wordX w) (wordNN w) :=
  encoded_of_formatXB (fun _ _ => rfl) rfl fun _ _ => rfl

theorem encoded_addImm : Encoded 0xF000 0x7000 fun w => .addImm (wordX w) (wordNN w) :=
  encoded_of_formatXB (fun _ _ => rfl) rfl fun _ _ => rfl

theorem encoded_rnd : Encoded 0xF000 0xC000 fun w => .rnd (wordX w) (wordNN w) :=
  encoded_of_formatXB (fun _ _ => rfl) rfl fun _ _ => rfl

theorem encoded_ldReg : Encoded 0xF00F 0x8000 fun w => .ldReg (wordX w) (wordY w) :=
  encoded_of_formatXYN (fun _ _ => rfl) rfl fun _ _ => rfl

theorem encoded_orReg : Encoded 0xF00F 0x8001 fun w => .orReg (wordX w) (wordY w) :=
  encoded_of_formatXYN (fun _ _ => rfl) rfl fun _ _ => rfl

theorem encoded_andReg : Encoded 0xF00F 0x8002 fun w => .andReg (wordX w) (wordY w) :=
  encoded_of_formatXYN (fun _ _ => rfl) rfl fun _ _ => rfl

theorem encoded_xorReg : Encoded 0xF00F 0x8003 fun w => .xorReg (wordX w) (wordY w) :=
  encoded_of_formatXYN (fun _ _ => rfl) rfl fun _ _ => rfl

theorem encoded_addReg : Encoded 0xF00F 0x8004 fun w => .addReg (wordX w) (wordY w) :=
  encoded_of_formatXYN (fun _ _ => rfl) rfl fun _ _ => rfl

theorem encoded_sub : Encoded 0xF00F 0x8005 fun w => .sub (wordX w) (wordY w) :=
  encoded_of_formatXYN (fun _ _ => rfl) rfl fun _ _ => rfl

theorem encoded_shr : Encoded 0xF00F 0x8006 fun w => .shr (wordX w) (wordY w) :=
  encoded_of_formatXYN (fun _ _ => rfl) rfl fun _ _ => rfl

theorem encoded_subn : Encoded 0xF00F 0x8007 fun w => .subn (wordX w) (wordY w) :=
  encoded_of_formatXYN (fun _ _ => rfl) rfl fun _ _ => rfl

theorem encoded_shl : Encoded 0xF00F 0x800E fun w => .shl (wordX w) (wordY w) :=
  encoded_of_formatXYN (fun _ _ => rfl) rfl fun _ _ => rfl

end Sys2Proof.Claims
end

section
/-! PROOFS. Registers and arithmetic (41_register_alu.md): each instruction writes one register, or a result and then the flag;
what is left to say is the value. -/

namespace Sys2Proof.Machine

open Claims

/-! The two shapes of a write, with their frames. -/

theorem flagIs_flagByte {f : Bool} {p : Prop} (h : f = true ↔ p) : FlagIs (flagByte f) p := by
  refine ⟨fun hp => ?_, fun hp => ?_⟩
  · rw [h.2 hp]; rfl
  · rw [Bool.eq_false_iff.2 (mt h.1 hp)]; rfl

section Writes

variable (s : State)

theorem reg_setReg_same (x : Reg) (b : Byte) : (s.setReg x b).reg x = b := by simp

theorem unchanged_setReg (x : Reg) (b : Byte) : Unchanged [x] [] s (s.setReg x b) := by simp +contextual [Unchanged]

theorem unchanged_setReg_drawn (x : Reg) (b : Byte) : Unchanged [x] [.draws] s (s.setReg x b).drawn := by
  simp +contextual [Unchanged]

theorem reg_setResultFlag_dest {x : Reg} (hx : x ≠ 15) (b : Byte) (f : Bool) : (s.setResultFlag x b f).reg x = b := by
  rw [reg_setResultFlag, if_neg hx, if_pos rfl]

theorem unchanged_setResultFlag (x : Reg) (b : Byte) (f : Bool) : Unchanged [x, 15] [] s (s.setResultFlag x b f) := by
  simp +contextual [Unchanged]

/-- The flag is written last, so VF holds it for every `x` (41_register_alu.md R121). -/
theorem flagIs_setResultFlag {f : Bool} {p : Prop} (h : f = true ↔ p) (x : Reg) (b : Byte) :
    FlagIs ((s.setResultFlag x b f).reg 15) p := by
  rw [reg_setResultFlag, if_pos rfl]
  exact flagIs_flagByte h

end Writes

/-! The values (41_register_alu.md R120, R128 to R132). -/

theorem toNat_addByte (a b : Byte) : (addByte a b).toNat = (a.toNat + b.toNat) % 256 := by simp [addByte]

theorem toNat_subByte (a b : Byte) : (subByte a b).toNat = (a.toNat + 256 - b.toNat) % 256 := by simp [subByte]

theorem carry_iff (a b : Byte) : carry a b = true ↔ a.toNat + b.toNat > 255 := decide_eq_true_iff

theorem notBorrow_iff (a b : Byte) : notBorrow a b = true ↔ a.toNat ≥ b.toNat := decide_eq_true_iff

theorem shiftRight_eq (v : Byte) : shiftRight v = v >>> 1 := by
  apply BitVec.eq_of_toNat_eq
  rw [shiftRight, BitVec.toNat_ofNat, BitVec.toNat_ushiftRight, Nat.shiftRight_eq_div_pow]
  omega

theorem shiftLeft_eq (v : Byte) : shiftLeft v = v <<< 1 := by
  apply BitVec.eq_of_toNat_eq
  rw [shiftLeft, BitVec.toNat_ofNat, BitVec.toNat_shiftLeft, Nat.shiftLeft_eq]
  omega

theorem getLsbD_shiftRight (v : Byte) (k : Nat) : (shiftRight v).getLsbD k = v.getLsbD (k + 1) := by
  rw [shiftRight_eq, BitVec.getLsbD_ushiftRight, Nat.add_comm]

theorem getLsbD_shiftLeft_zero (v : Byte) : (shiftLeft v).getLsbD 0 = false := by
  simp [shiftLeft_eq]

theorem getLsbD_shiftLeft_succ (v : Byte) {k : Nat} (hk : k < 7) : (shiftLeft v).getLsbD (k + 1) = v.getLsbD k := by
  have hin : k + 1 < 8 := by omega
  rw [shiftLeft_eq, BitVec.getLsbD_shiftLeft, decide_eq_true hin]
  simp

variable {s : State}

/-- `SHIFT_MODE` has two values, so the operand's two cases determine it. -/
theorem eq_shiftOperand {x y : Reg} {v : Byte} (hmodern : s.config.shiftMode = .modern → v = s.reg x)
    (hlegacy : s.config.shiftMode = .legacy → v = s.reg y) : v = s.shiftOperand x y := by
  unfold State.shiftOperand
  split
  · next h => exact hmodern h
  · next h => exact hlegacy h

/-! Instructions that write one register. -/

/-- Settles O17. -/
theorem loadByte : Obligations.LoadByte :=
  ⟨encoded_ldImm, fun x _ s => ⟨_, rfl, reg_setReg_same s x _, unchanged_setReg s x _⟩⟩

/-- Settles O19. -/
theorem copyRegister : Obligations.CopyRegister :=
  ⟨encoded_ldReg, fun x _ s => ⟨_, rfl, reg_setReg_same s x _, unchanged_setReg s x _⟩⟩

/-- Settles O18. -/
theorem addByteWithoutFlag : Obligations.AddByteWithoutFlag := by
  refine ⟨encoded_addImm, fun x nn s => ⟨_, rfl, ?_, unchanged_setReg s x _⟩⟩
  rw [reg_setReg_same, toNat_addByte]

/-- Settles O20: the library's bit lemma of each operation. -/
theorem logicOperations : Obligations.LogicOperations := by
  refine ⟨encoded_orReg, encoded_andReg, encoded_xorReg, fun x y s =>
    ⟨⟨_, rfl, unchanged_setReg s x _, fun k => ?_⟩, ⟨_, rfl, unchanged_setReg s x _, fun k => ?_⟩,
      ⟨_, rfl, unchanged_setReg s x _, fun k => ?_⟩⟩⟩
  · rw [reg_setReg_same, BitVec.getLsbD_or]
  · rw [reg_setReg_same, BitVec.getLsbD_and]
  · rw [reg_setReg_same, BitVec.getLsbD_xor]

theorem and_and_not_self (r nn : Byte) : r &&& nn &&& ~~~nn = 0 := by
  rw [BitVec.and_assoc, BitVec.and_not_self]
  exact BitVec.and_zero

/-- Settles O24. -/
theorem randomByteIsMasked : Obligations.RandomByteIsMasked := by
  refine ⟨encoded_rnd, fun x nn s => ?_⟩
  have hx : ((s.setReg x (Config.rnd s.draws &&& nn)).drawn).reg x = Config.rnd s.draws &&& nn := by
    rw [reg_drawn, reg_setReg_same]
  refine ⟨_, rfl, hx, ?_, fun hnn => ?_, rfl, unchanged_setReg_drawn s x _⟩
  · exact (congrArg (· &&& ~~~nn) hx).trans (and_and_not_self _ nn)
  · subst hnn
    exact hx.trans BitVec.and_zero

/-! Instructions that write a result and then the flag. -/

/-- Settles O21. -/
theorem addWithCarryOut : Obligations.AddWithCarryOut := by
  refine ⟨encoded_addReg, fun x y s =>
    ⟨_, rfl, fun hx => ?_, flagIs_setResultFlag s (carry_iff _ _) x _, unchanged_setResultFlag s x _ _⟩⟩
  rw [reg_setResultFlag_dest s hx, toNat_addByte]

/-- Settles O22. -/
theorem subtractBothWays : Obligations.SubtractBothWays := by
  refine ⟨encoded_sub, encoded_subn, fun x y s =>
    ⟨⟨_, rfl, fun hx => ?_, flagIs_setResultFlag s (notBorrow_iff _ _) x _, unchanged_setResultFlag s x _ _⟩,
      ⟨_, rfl, fun hx => ?_, flagIs_setResultFlag s (notBorrow_iff _ _) x _, unchanged_setResultFlag s x _ _⟩⟩⟩
  · rw [reg_setResultFlag_dest s hx, toNat_subByte]
  · rw [reg_setResultFlag_dest s hx, toNat_subByte]

/-- Settles O23: both modes shift `shiftOperand`. -/
theorem shiftsByOne : Obligations.ShiftsByOne := by
  refine ⟨encoded_shr, encoded_shl, fun x y s v hmodern hlegacy => ?_⟩
  obtain rfl := eq_shiftOperand hmodern hlegacy
  refine ⟨⟨_, rfl, flagIs_setResultFlag s Iff.rfl x _, unchanged_setResultFlag s x _ _, fun hx k => ?_⟩,
    ⟨_, rfl, flagIs_setResultFlag s Iff.rfl x _, unchanged_setResultFlag s x _ _, fun hx => ?_⟩⟩
  · rw [reg_setResultFlag_dest s hx, getLsbD_shiftRight]
  · rw [reg_setResultFlag_dest s hx]
    exact ⟨getLsbD_shiftLeft_zero _, fun k hk => getLsbD_shiftLeft_succ _ hk⟩

end Sys2Proof.Machine
end

section
/-! PROOFS. The words of the index and memory instructions (30_encoding.md R73, R76). -/

namespace Sys2Proof.Claims

variable {matched : Word}

/-- A row of format X: the mask keeps the family and `nn`, `x` is the operand. -/
theorem encoded_of_formatX {c : Reg → Instr} (hrow : ∀ x, tableRow (c x) = (0xF0FF, matched))
    (hm : matched &&& 0xF0FF = matched)
    (hc : ∀ x, encode (c x) = formatXB (fieldsOf matched).op x (fieldsOf matched).nn) :
    Encoded 0xF0FF matched fun w => c (wordX w) :=
  encoded_of_family_nn (fun _ => hrow _) hm fun w hop hnn =>
    dispatch_of_encode_eq (by rw [hc, ← hop, ← hnn, wordX_eq, formatXB_fields])

theorem encoded_ldI : Encoded 0xF000 0xA000 fun w => .ldI (wordNNN w) :=
  encoded_of_family (fun _ => rfl) rfl fun w hop => by rw [dispatch, hop, wordNNN_eq]; rfl

theorem encoded_addI : Encoded 0xF0FF 0xF01E fun w => .addI (wordX w) :=
  encoded_of_formatX (fun _ => rfl) rfl fun _ => rfl

theorem encoded_ldF : Encoded 0xF0FF 0xF029 fun w => .ldF (wordX w) :=
  encoded_of_formatX (fun _ => rfl) rfl fun _ => rfl

theorem encoded_ldB : Encoded 0xF0FF 0xF033 fun w => .ldB (wordX w) :=
  encoded_of_formatX (fun _ => rfl) rfl fun _ => rfl

theorem encoded_ldMemVx : Encoded 0xF0FF 0xF055 fun w => .ldMemVx (wordX w) :=
  encoded_of_formatX (fun _ => rfl) rfl fun _ => rfl

theorem encoded_ldVxMem : Encoded 0xF0FF 0xF065 fun w => .ldVxMem (wordX w) :=
  encoded_of_formatX (fun _ => rfl) rfl fun _ => rfl

end Sys2Proof.Claims
end

section
/-! PROOFS. Index register and memory (42_index_memory.md): what each instruction leaves in `I`, in memory or in the
registers, with its frame, and when an access faults. -/

namespace Sys2Proof.Machine

open Claims

variable {s t : State}

/-! Instructions that write `I`. -/

theorem unchanged_setI (s : State) (a : Word) : Unchanged [] [.index] s (s.setI a) := by simp [Unchanged]

theorem toNat_indexSum (s : State) (x : Reg) : (s.indexSum x).toNat = (s.i.toNat + (s.reg x).toNat) % 65536 := by
  simp [State.indexSum]

/-- The highest glyph address is 0x054B, so the sum of FX29 fits into 16 bits. -/
theorem toNat_glyphAddress (b : Byte) : (glyphAddress b).toNat = 0x050 + 5 * b.toNat := by
  have hb := b.isLt
  rw [glyphAddress, BitVec.toNat_ofNat]
  omega

/-- Settles O26. -/
theorem loadIndex : Obligations.LoadIndex :=
  ⟨encoded_ldI, fun nnn s => ⟨_, rfl, toNat_zext16 nnn, unchanged_setI s _⟩⟩

/-- Settles O27. -/
theorem addToIndex : Obligations.AddToIndex :=
  ⟨encoded_addI, fun x s => ⟨_, rfl, toNat_indexSum s x, unchanged_setI s _⟩⟩

/-- Settles O28. -/
theorem pointIndexAtGlyph : Obligations.PointIndexAtGlyph :=
  ⟨encoded_ldF, fun x s => ⟨_, rfl, toNat_glyphAddress (s.reg x), unchanged_setI s _⟩⟩

/-! Instructions that store bytes at `I`. -/

theorem unchanged_setBytes (s : State) (a : Nat) (bs : List Byte) : Unchanged [] [.memory] s (s.setBytes a bs) := by
  simp [Unchanged]

theorem onlyBytes_setBytes (s : State) (a : Nat) (bs : List Byte) : OnlyBytes a bs.length s (s.setBytes a bs) :=
  fun _ hq => byte_setBytes_other s hq

/-- The stored byte at an offset into the range. -/
theorem byte_setBytes_add (hs : s.memWf) {a k : Nat} {bs : List Byte} (ha : a + bs.length ≤ 4096) (hk : k < bs.length) :
    (s.setBytes a bs).byte (a + k) = bs[k] := by
  rw [byte_setBytes hs ha, dif_pos ⟨by omega, by omega⟩]
  simp

/-! FX33. -/

theorem exec_ldB_ok (x : Reg) (h : s.i.toNat + 2 ≤ 4095) :
    exec (.ldB x) s = .next (s.setBytes s.i.toNat (decimalDigits (s.reg x))) := by
  rw [exec, execLdB, memWrite_ok (.inr (by rw [length_decimalDigits]; omega)), toResult_ok]

theorem exec_ldB_fault (x : Reg) (h : s.i.toNat + 2 > 4095) :
    exec (.ldB x) s = .fault (.memoryOutOfBounds (max s.i.toNat 4096)) := by
  rw [exec, execLdB, memWrite_error (by simp) (by rw [length_decimalDigits]; omega), toResult_error]

theorem execLdB_next {x : Reg} (h : exec (.ldB x) s = .next t) :
    s.i.toNat + 2 ≤ 4095 ∧ t = s.setBytes s.i.toNat (decimalDigits (s.reg x)) := by
  obtain ⟨hr, ht⟩ := memWrite_next (by simp) h
  rw [length_decimalDigits] at hr
  exact ⟨by omega, ht⟩

/-- A byte has at most three decimal digits, and each fits into a byte. -/
theorem toNat_stored_digits (hs : s.memWf) {a : Nat} (ha : a + 2 ≤ 4095) (b : Byte) :
    ((s.setBytes a (decimalDigits b)).byte a).toNat = b.toNat / 100 ∧
      ((s.setBytes a (decimalDigits b)).byte (a + 1)).toNat = b.toNat / 10 % 10 ∧
      ((s.setBytes a (decimalDigits b)).byte (a + 2)).toNat = b.toNat % 10 := by
  have hb := b.isLt
  have hr : a + (decimalDigits b).length ≤ 4096 := by rw [length_decimalDigits]; omega
  have stored {k : Nat} (hk : k < 3) :
      ((s.setBytes a (decimalDigits b)).byte (a + k)).toNat = ((decimalDigits b)[k]).toNat :=
    congrArg BitVec.toNat (byte_setBytes_add hs hr hk)
  refine ⟨(stored (k := 0) (by omega)).trans (Nat.mod_eq_of_lt ?_), (stored (k := 1) (by omega)).trans (Nat.mod_eq_of_lt ?_),
    (stored (k := 2) (by omega)).trans (Nat.mod_eq_of_lt ?_)⟩ <;> omega

/-- Settles O29. -/
theorem storeDecimalDigits : Obligations.StoreDecimalDigits :=
  ⟨encoded_ldB, fun x s => ⟨exec_ldB_fault x, fun h =>
    ⟨_, exec_ldB_ok x h, unchanged_setBytes s _ _, onlyBytes_setBytes s _ (decimalDigits (s.reg x)),
      fun hs => toNat_stored_digits hs h _⟩⟩⟩

/-- Settles O30: a byte is at most 255, so its hundreds digit is at most 2. -/
theorem storedDigitsStandForValue : Obligations.StoredDigitsStandForValue := by
  intro x s t hs h
  obtain ⟨hr, rfl⟩ := execLdB_next h
  obtain ⟨hundreds, tens, ones⟩ := toNat_stored_digits hs hr (s.reg x)
  have hb := (s.reg x).isLt
  rw [hundreds, tens, ones]
  omega

/-! FX55. -/

theorem exec_ldMemVx_ok (x : Reg) (h : s.i.toNat + x.val ≤ 4095) :
    exec (.ldMemVx x) s = .next (s.setBytes s.i.toNat (s.regsUpTo x)) := by
  rw [exec, execLdMemVx, memWrite_ok (.inr (by rw [length_regsUpTo]; omega)), toResult_ok]

theorem exec_ldMemVx_fault (x : Reg) (h : s.i.toNat + x.val > 4095) :
    exec (.ldMemVx x) s = .fault (.memoryOutOfBounds (max s.i.toNat 4096)) := by
  rw [exec, execLdMemVx, memWrite_error (by simp) (by rw [length_regsUpTo]; omega), toResult_error]

/-- Settles O31. -/
theorem storeRegisters : Obligations.StoreRegisters := by
  refine ⟨encoded_ldMemVx, fun x s => ⟨exec_ldMemVx_fault x, fun h =>
    ⟨_, exec_ldMemVx_ok x h, unchanged_setBytes s _ _, ?_, fun hs _ hk => byte_stored_reg hs (by omega) hk⟩⟩⟩
  rw [← length_regsUpTo s x]
  exact onlyBytes_setBytes s _ _

/-! FX65. -/

/-- The state FX65 leaves when its access is in range. -/
def State.loaded (s : State) (x : Reg) : State :=
  s.setRegs 0 (s.bytes s.i.toNat (x.val + 1))

theorem exec_ldVxMem_ok (x : Reg) (h : s.i.toNat + x.val ≤ 4095) : exec (.ldVxMem x) s = .next (s.loaded x) := by
  rw [exec, execLdVxMem, memRead_ok (.inr (by omega))]
  rfl

theorem exec_ldVxMem_fault (x : Reg) (h : s.i.toNat + x.val > 4095) :
    exec (.ldVxMem x) s = .fault (.memoryOutOfBounds (max s.i.toNat 4096)) := by
  rw [exec, execLdVxMem, memRead_error (by omega) (by omega)]

theorem reg_loaded (s : State) (x k : Reg) :
    (s.loaded x).reg k = if k.val ≤ x.val then s.byte (s.i.toNat + k.val) else s.reg k := by
  rw [State.loaded, setRegs_reg s _ 0 (by rw [length_bytes]; omega)]
  by_cases hk : k.val ≤ x.val
  · have hin : 0 ≤ k.val ∧ k.val < 0 + (s.bytes s.i.toNat (x.val + 1)).length := by rw [length_bytes]; omega
    rw [dif_pos hin, if_pos hk, getElem_bytes, Nat.sub_zero]
  · have hout : ¬(0 ≤ k.val ∧ k.val < 0 + (s.bytes s.i.toNat (x.val + 1)).length) := by rw [length_bytes]; omega
    rw [dif_neg hout, if_neg hk]

theorem reg_loaded_of_le {x k : Reg} (hk : k ≤ x) : (s.loaded x).reg k = s.byte (s.i.toNat + k.val) :=
  (reg_loaded s x k).trans (if_pos hk)

theorem reg_loaded_of_lt {x k : Reg} (hk : x < k) : (s.loaded x).reg k = s.reg k :=
  (reg_loaded s x k).trans (if_neg (Nat.not_le.2 hk))

theorem mem_all_regs (r : Reg) : r ∈ [0, 1, 2, 3, 4, 5, 6, 7, 8, 9, 10, 11, 12, 13, 14, (15 : Reg)] := by
  revert r
  decide

theorem unchanged_loaded (s : State) (x : Reg) :
    Unchanged [0, 1, 2, 3, 4, 5, 6, 7, 8, 9, 10, 11, 12, 13, 14, 15] [] s (s.loaded x) :=
  ⟨fun r hr => absurd (mem_all_regs r) hr, by simp [State.loaded]⟩

/-- Settles O32. -/
theorem loadRegisters : Obligations.LoadRegisters :=
  ⟨encoded_ldVxMem, fun x s => ⟨exec_ldVxMem_fault x, fun h =>
    ⟨_, exec_ldVxMem_ok x h, fun _ => reg_loaded_of_le, fun _ => reg_loaded_of_lt, unchanged_loaded s x⟩⟩⟩

/-- Settles O33: the store was in range and kept `I`, so the load reads the bytes just stored. -/
theorem storeThenLoadRestoresRegisters : Obligations.StoreThenLoadRestoresRegisters := by
  intro x s t u hs h hbyte hi
  obtain ⟨hr, rfl⟩ := execLdMemVx_next h
  have hus : u.i = s.i := hi.trans (setBytes_i s _ _)
  refine ⟨_, exec_ldVxMem_ok x (by rw [hus]; omega), fun k hk => ?_⟩
  rw [reg_loaded_of_le hk, hus, hbyte, byte_stored_reg hs hr hk]

end Sys2Proof.Machine
end

section
/-! PROOFS. The words of the display instructions (30_encoding.md R73, R76). -/

namespace Sys2Proof.Claims

theorem wordN_eq (w : Word) : wordN w = (fieldsOf w).n.toFin := rfl

theorem encoded_cls : Encoded 0xF0FF 0x00E0 fun _ => .cls :=
  encoded_of_family_nn (fun _ => rfl) rfl fun w hop hnn => by rw [dispatch, hop, hnn]; rfl

theorem encoded_drw : Encoded 0xF000 0xD000 fun w => .drw (wordX w) (wordY w) (wordN w) :=
  encoded_of_family (fun _ => rfl) rfl fun w hop => by rw [dispatch, hop, wordX_eq, wordY_eq, wordN_eq]; rfl

end Sys2Proof.Claims
end

section
/-! PROOFS. Display (43_display.md): a draw XORs one Boolean a pixel into the display, the sprite's bit there; what is said
of one draw, of two draws and of the pixels a draw can change follows from that. -/

namespace Sys2Proof.Machine

open Claims

variable {s t u : State} {x y : Reg} {n : Fin 16}

/-! Clearing. -/

theorem unchanged_setDisp (s : State) (d : Display) : Unchanged [] [.display] s (s.setDisp d) := by simp [Unchanged]

/-- Settles O35: the display a clear leaves does not depend on the one before it. The bare name is the model's display. -/
theorem clearDisplay_holds : Obligations.ClearDisplay :=
  ⟨encoded_cls, fun s => ⟨s.setDisp clearDisplay, rfl, pixelAt_clearDisplay, unchanged_setDisp s _, rfl⟩⟩

/-! The sprite of a draw as the screen sees it: one Boolean a pixel. -/

/-- The bit DXYN in state `s` brings to column `px`, row `py`; false where it brings none. -/
def State.spritePixel (s : State) (x y : Reg) (n : Fin 16) (px : Fin 64) (py : Fin 32) : Bool :=
  spriteAt (startColumn (s.reg x)) (startRow (s.reg y)) (s.bytes s.i.toNat n.val) px.val py.val

/-- The bit at an offset into the sprite. -/
theorem spriteAt_bytes_add (s : State) (x0 y0 a : Nat) {n r c : Nat} (hr : r < n) (hc : c < 8) :
    spriteAt x0 y0 (s.bytes a n) (x0 + c) (y0 + r) = (s.byte (a + r)).getLsbD (7 - c) := by
  have hin : x0 ≤ x0 + c ∧ x0 + c < x0 + 8 ∧ y0 ≤ y0 + r ∧ y0 + r < y0 + (s.bytes a n).length := by
    rw [length_bytes]; omega
  have hlen : r < (s.bytes a n).length := by rwa [length_bytes]
  rw [spriteAt, decide_eq_true hin, Bool.true_and, Nat.add_sub_cancel_left, Nat.add_sub_cancel_left, spriteBit,
    List.getD_eq_getElem _ _ hlen, getElem_bytes]

theorem spritePixel_iff (s : State) (x y : Reg) (n : Fin 16) (px : Fin 64) (py : Fin 32) :
    s.spritePixel x y n px py = true ↔ SpriteBit s x y n.val px py := by
  constructor
  · intro h
    have hin := h
    rw [State.spritePixel, spriteAt, Bool.and_eq_true, decide_eq_true_eq, length_bytes] at hin
    obtain ⟨⟨hx, hx8, hy, hyn⟩, -⟩ := hin
    obtain ⟨c, hc⟩ := Nat.exists_eq_add_of_le hx
    obtain ⟨r, hr⟩ := Nat.exists_eq_add_of_le hy
    rw [State.spritePixel, hc, hr, spriteAt_bytes_add s _ _ _ (by omega) (by omega)] at h
    exact ⟨r, c, by omega, by omega, hr, hc, h⟩
  · rintro ⟨r, c, hr, hc, hy, hx, hb⟩
    rw [State.spritePixel, hx, hy]
    exact (spriteAt_bytes_add s _ _ _ hr hc).trans hb

/-- A sprite is read from the start coordinates, from `I` and from memory. -/
theorem spritePixel_congr (hx : (t.reg x).toNat % 64 = (s.reg x).toNat % 64)
    (hy : (t.reg y).toNat % 32 = (s.reg y).toNat % 32) (hi : t.i = s.i) (hb : ∀ a, t.byte a = s.byte a)
    (px : Fin 64) (py : Fin 32) : t.spritePixel x y n px py = s.spritePixel x y n px py := by
  simp only [State.spritePixel, startColumn, startRow, hx, hy, hi, bytes_congr hb]

/-! The state a draw leaves. -/

/-- The display and the collision of DXYN (43_display.md R161). -/
def State.drawSprite (s : State) (x y : Reg) (n : Fin 16) : Display × Bool :=
  drawRows (startColumn (s.reg x)) (startRow (s.reg y)) (s.bytes s.i.toNat n.val) (s.disp, false)

/-- The state DXYN leaves when its rows are in range. -/
def State.afterDraw (s : State) (x y : Reg) (n : Fin 16) : State :=
  (s.setDisp (s.drawSprite x y n).1).setFlag (s.drawSprite x y n).2

theorem exec_drw_ok (x y : Reg) (h : n.val = 0 ∨ s.i.toNat + n.val - 1 ≤ 4095) :
    exec (.drw x y n) s = .next (s.afterDraw x y n) := by
  rw [exec, execDrw, memRead_ok (by omega)]
  rfl

theorem exec_drw_fault (x y : Reg) (hn : 1 ≤ n.val) (h : s.i.toNat + n.val - 1 > 4095) :
    exec (.drw x y n) s = .fault (.memoryOutOfBounds (max s.i.toNat 4096)) := by
  rw [exec, execDrw, memRead_error hn (by omega)]

theorem eq_afterDraw_of_exec (h : exec (.drw x y n) s = .next t) : t = s.afterDraw x y n := by
  by_cases hr : n.val = 0 ∨ s.i.toNat + n.val - 1 ≤ 4095
  · rw [exec_drw_ok x y hr] at h
    cases h
    rfl
  · rw [exec_drw_fault x y (by omega) (by omega)] at h
    cases h

theorem unchanged_afterDraw (s : State) (x y : Reg) (n : Fin 16) :
    Unchanged [15] [.display] s (s.afterDraw x y n) := by
  simp +contextual [Unchanged, State.afterDraw]

theorem pixelAt_afterDraw (s : State) (x y : Reg) (n : Fin 16) (px : Fin 64) (py : Fin 32) :
    pixelAt (s.afterDraw x y n).disp px py = xor (pixelAt s.disp px py) (s.spritePixel x y n px py) :=
  drawRows_pixel _ _ _ _ px py

theorem pixelAt_afterDraw_of_spriteBit {px : Fin 64} {py : Fin 32} (h : SpriteBit s x y n.val px py) :
    pixelAt (s.afterDraw x y n).disp px py = !pixelAt s.disp px py := by
  rw [pixelAt_afterDraw, (spritePixel_iff s x y n px py).2 h, Bool.xor_true]

theorem pixelAt_afterDraw_of_not_spriteBit {px : Fin 64} {py : Fin 32} (h : ¬SpriteBit s x y n.val px py) :
    pixelAt (s.afterDraw x y n).disp px py = pixelAt s.disp px py := by
  rw [pixelAt_afterDraw, Bool.eq_false_iff.2 (mt (spritePixel_iff s x y n px py).1 h), Bool.xor_false]

/-- VF is written last, so it holds the collision for every `x` and `y`. -/
theorem flagIs_afterDraw (s : State) (x y : Reg) (n : Fin 16) : FlagIs ((s.afterDraw x y n).reg 15)
    (∃ px py, SpriteBit s x y n.val px py ∧ pixelAt s.disp px py = true) := by
  rw [State.afterDraw, reg_setFlag, if_pos rfl]
  refine flagIs_flagByte ((drawRows_hit _ _ _ _).trans ?_)
  simp only [Bool.false_eq_true, false_or, ← spritePixel_iff, State.spritePixel]

/-- Settles O36: the rules of a draw, whose range check is that of the `n` bytes at `I`. -/
theorem drawSprite : Obligations.DrawSprite :=
  ⟨encoded_drw, fun x y n s => ⟨exec_drw_fault x y, fun h =>
    ⟨_, exec_drw_ok x y h, fun _ _ => pixelAt_afterDraw_of_spriteBit, fun _ _ => pixelAt_afterDraw_of_not_spriteBit,
      flagIs_afterDraw s x y n, unchanged_afterDraw s x y n⟩⟩⟩

/-! Two draws. -/

theorem display_ext {d e : Display} (h : ∀ px py, pixelAt d px py = pixelAt e px py) : d = e :=
  Vector.ext fun py hy => Vector.ext fun px hx => h ⟨px, hx⟩ ⟨py, hy⟩

/-- Settles O37: the second draw XORs the same bit into each pixel, and finds a pixel under the sprite set exactly when the
first found it clear. -/
theorem drawTwiceRestoresDisplay : Obligations.DrawTwiceRestoresDisplay := by
  intro x y n s t u hst hx hy htu
  obtain rfl := eq_afterDraw_of_exec hst
  obtain rfl := eq_afterDraw_of_exec htu
  have same := spritePixel_congr (n := n) hx hy rfl fun _ => rfl
  refine ⟨display_ext fun px py => ?_, ?_⟩
  · rw [pixelAt_afterDraw, pixelAt_afterDraw, same, Bool.xor_assoc, Bool.xor_self, Bool.xor_false]
  · have clear_before (px : Fin 64) (py : Fin 32) :
        SpriteBit (s.afterDraw x y n) x y n.val px py ∧ pixelAt (s.afterDraw x y n).disp px py = true ↔
          SpriteBit s x y n.val px py ∧ pixelAt s.disp px py = false := by
      rw [← spritePixel_iff, same, spritePixel_iff]
      refine and_congr_right fun hb => ?_
      rw [pixelAt_afterDraw_of_spriteBit hb, Bool.not_eq_true']
    simpa only [clear_before] using flagIs_afterDraw (s.afterDraw x y n) x y n

/-! How many pixels a draw changes. -/

/-- The pixel number of row `rc.1`, column `rc.2` of the sprite DXYN draws in state `s`. -/
def State.spriteIndex (s : State) (x y : Reg) (rc : Nat × Nat) : Fin 2048 :=
  Fin.ofNat 2048 (((s.reg y).toNat % 32 + rc.1) * 64 + ((s.reg x).toNat % 64 + rc.2))

theorem exists_spriteIndex_of_readPixel_ne {p : Fin 2048} (h : readPixel (s.afterDraw x y n) p ≠ readPixel s p) :
    ∃ r c, r < n.val ∧ c < 8 ∧ s.spriteIndex x y (r, c) = p := by
  obtain ⟨r, c, hr, hc, hy, hx, -⟩ := not_imp_comm.1 pixelAt_afterDraw_of_not_spriteBit h
  refine ⟨r, c, hr, hc, Fin.ext ?_⟩
  dsimp only at hy hx
  rw [State.spriteIndex, Fin.val_ofNat, ← hx, ← hy]
  omega

/-- Settles O38: the changed pixels are among those of the sprite's `n` rows of eight columns. -/
theorem drawChangesFewPixels : Obligations.DrawChangesFewPixels := by
  intro x y n s t h
  obtain rfl := eq_afterDraw_of_exec h
  rw [← List.toFinset_card_of_nodup ((List.nodup_finRange _).filter _)]
  have card_sprite : (Finset.range n.val ×ˢ Finset.range 8).card = 8 * n.val := by
    rw [Finset.card_product, Finset.card_range, Finset.card_range, Nat.mul_comm]
  rw [← card_sprite]
  refine Finset.card_le_card_of_surjOn (s.spriteIndex x y) fun p hp => ?_
  have hne : readPixel (s.afterDraw x y n) p ≠ readPixel s p := by simpa using hp
  obtain ⟨r, c, hr, hc, rfl⟩ := exists_spriteIndex_of_readPixel_ne hne
  exact ⟨(r, c), by simp [hr, hc], rfl⟩

end Sys2Proof.Machine
end

section
/-! PROOFS. The words of the keypad and timer instructions (30_encoding.md R73, R76). -/

namespace Sys2Proof.Claims

theorem encoded_skp : Encoded 0xF0FF 0xE09E fun w => .skp (wordX w) :=
  encoded_of_formatX (fun _ => rfl) rfl fun _ => rfl

theorem encoded_sknp : Encoded 0xF0FF 0xE0A1 fun w => .sknp (wordX w) :=
  encoded_of_formatX (fun _ => rfl) rfl fun _ => rfl

theorem encoded_ldVxDT : Encoded 0xF0FF 0xF007 fun w => .ldVxDT (wordX w) :=
  encoded_of_formatX (fun _ => rfl) rfl fun _ => rfl

theorem encoded_ldVxK : Encoded 0xF0FF 0xF00A fun w => .ldVxK (wordX w) :=
  encoded_of_formatX (fun _ => rfl) rfl fun _ => rfl

theorem encoded_ldDTVx : Encoded 0xF0FF 0xF015 fun w => .ldDTVx (wordX w) :=
  encoded_of_formatX (fun _ => rfl) rfl fun _ => rfl

theorem encoded_ldSTVx : Encoded 0xF0FF 0xF018 fun w => .ldSTVx (wordX w) :=
  encoded_of_formatX (fun _ => rfl) rfl fun _ => rfl

end Sys2Proof.Claims
end

section
/-! PROOFS. Keypad and timers (44_keypad_timers.md): the skips on a key, the wait for a key, and the access to the timers. -/

namespace Sys2Proof.Machine

open Claims

variable {s : State}

/-! Skips on a key. -/

theorem keyDown_eq (s : State) (x : Reg) : s.keyDown x = s.key.get (Fin.ofNat 16 ((s.reg x).toNat % 16)) :=
  congrArg s.key.get (Fin.ext (Nat.mod_mod _ _).symm)

theorem skipIf_not_pc (s : State) (c : Bool) : (s.skipIf (!c)).pc = if c = true then s.pc else s.pc + 2 := by
  cases c <;> rfl

/-- Settles O39: the key the statement names is the one `keyDown` tests. -/
theorem skipsOnKey : Obligations.SkipsOnKey := by
  refine ⟨encoded_skp, encoded_sknp, fun x s down hdown => ?_⟩
  obtain rfl : down = s.keyDown x := hdown.trans (keyDown_eq s x).symm
  exact ⟨⟨_, rfl, skipIf_pc s _, unchanged_skipIf s _⟩, ⟨_, rfl, skipIf_not_pc s _, unchanged_skipIf s _⟩⟩

/-! The wait for a key. -/

theorem exec_ldVxK_rewinds (x : Reg) (h : ∀ k, s.key.get k = false) : exec (.ldVxK x) s = .next (s.setPc (s.pc - 2)) := by
  rw [exec, execLdVxK, lowestKey_none h]

theorem exec_ldVxK_loads (x : Reg) {k : Fin 16} (hk : s.key.get k = true) (hmin : ∀ j < k, s.key.get j = false) :
    exec (.ldVxK x) s = .next (s.setReg x (BitVec.ofNat 8 k.val)) := by
  rw [exec, execLdVxK, lowestKey_some hk hmin]

/-- A key number fits into a byte. -/
theorem toNat_keyByte (k : Fin 16) : (BitVec.ofNat 8 k.val).toNat = k.val := by
  rw [BitVec.toNat_ofNat]
  omega

/-- Settles O40: either no key is down or there is a lowest one. -/
theorem waitForKey : Obligations.WaitForKey := by
  refine ⟨encoded_ldVxK, fun x s => ⟨fun h => ?_, fun k hk hmin => ?_⟩⟩
  · exact ⟨_, exec_ldVxK_rewinds x h, rfl, unchanged_setPc s _⟩
  · refine ⟨_, exec_ldVxK_loads x hk hmin, ?_, unchanged_setReg s x _⟩
    rw [reg_setReg_same, toNat_keyByte]

/-- Settles O41: the fetch advances `PC` by 2 and FX0A takes it back by 2, modulo 65536 both. -/
theorem waitingStepChangesNothing : Obligations.WaitingStepChangesNothing := by
  intro x s hp hd hkeys
  calc step s = exec (.ldVxK x) (s.setPc (s.pc + 2)) := step_eq_exec hp hd
    _ = .next (s.setPc (s.pc + 2 - 2)) := exec_ldVxK_rewinds (s := s.setPc (s.pc + 2)) x hkeys
    _ = .next (s.setPc s.pc) := by rw [BitVec.add_sub_cancel]

/-! The timers. -/

theorem unchanged_setDt (s : State) (b : Byte) : Unchanged [] [.delay] s (s.setDt b) := by simp [Unchanged]

theorem unchanged_setSt (s : State) (b : Byte) : Unchanged [] [.sound] s (s.setSt b) := by simp [Unchanged]

/-- Settles O42. -/
theorem timerAccess : Obligations.TimerAccess :=
  ⟨encoded_ldVxDT, encoded_ldDTVx, encoded_ldSTVx, fun x s =>
    ⟨⟨_, rfl, reg_setReg_same s x _, unchanged_setReg s x _⟩, ⟨_, rfl, rfl, unchanged_setDt s _⟩,
      ⟨_, rfl, rfl, unchanged_setSt s _⟩⟩⟩

end Sys2Proof.Machine
end

section
/-! PROOFS. Errors (60_exceptions.md R202 to R210): the failures of an instruction, said once as `Failure`, and the state an
error of a step leaves. -/

namespace Sys2Proof.Machine

open Claims

variable {s : State} {i : Instr} {f : Fault}

/-! The failures of execution. -/

/-- The instructions that fail in `s`, each with its error (60_exceptions.md R204 to R206). -/
inductive Failure (s : State) : Instr → Fault → Prop
  | ret (hs : s.sp.val = 0) : Failure s .ret .stackUnderflow
  | call (nnn : Addr) (hs : s.sp.val = 16) : Failure s (.call nnn) .stackOverflow
  | drw (x y : Reg) (n : Fin 16) (hn : 1 ≤ n.val) (hr : s.i.toNat + n.val - 1 > 4095) :
      Failure s (.drw x y n) (.memoryOutOfBounds (max s.i.toNat 4096))
  | ldB (x : Reg) (hr : s.i.toNat + 2 > 4095) : Failure s (.ldB x) (.memoryOutOfBounds (max s.i.toNat 4096))
  | ldMemVx (x : Reg) (hr : s.i.toNat + x.val > 4095) : Failure s (.ldMemVx x) (.memoryOutOfBounds (max s.i.toNat 4096))
  | ldVxMem (x : Reg) (hr : s.i.toNat + x.val > 4095) : Failure s (.ldVxMem x) (.memoryOutOfBounds (max s.i.toNat 4096))

theorem exec_fault_of_failure (h : Failure s i f) : exec i s = .fault f := by
  cases h with
  | ret hs => exact exec_ret_underflow hs
  | call nnn hs => exact exec_call_overflow nnn hs
  | drw x y n hn hr => exact exec_drw_fault x y hn hr
  | ldB x hr => exact exec_ldB_fault x hr
  | ldMemVx x hr => exact exec_ldMemVx_fault x hr
  | ldVxMem x hr => exact exec_ldVxMem_fault x hr

/-- Six instructions have a condition to check; every other one answers a next state. -/
theorem exec_next_or_failure (i : Instr) (s : State) : (∃ t, exec i s = .next t) ∨ ∃ f, Failure s i f := by
  cases i with
  | ret =>
    by_cases hs : 0 < s.sp.val
    · exact .inl ⟨_, exec_ret_ok hs⟩
    · exact .inr ⟨_, .ret (by omega)⟩
  | call nnn =>
    by_cases hs : s.sp.val < 16
    · exact .inl ⟨_, exec_call_ok nnn hs⟩
    · exact .inr ⟨_, .call nnn (by omega)⟩
  | drw x y n =>
    by_cases hr : n.val = 0 ∨ s.i.toNat + n.val - 1 ≤ 4095
    · exact .inl ⟨_, exec_drw_ok x y hr⟩
    · exact .inr ⟨_, .drw x y n (by omega) (by omega)⟩
  | ldB x => exact (le_or_gt _ _).imp (fun hr => ⟨_, exec_ldB_ok x hr⟩) fun hr => ⟨_, .ldB x hr⟩
  | ldMemVx x => exact (le_or_gt _ _).imp (fun hr => ⟨_, exec_ldMemVx_ok x hr⟩) fun hr => ⟨_, .ldMemVx x hr⟩
  | ldVxMem x => exact (le_or_gt _ _).imp (fun hr => ⟨_, exec_ldVxMem_ok x hr⟩) fun hr => ⟨_, .ldVxMem x hr⟩
  | ldVxK x =>
    obtain ⟨hnone, -⟩ | ⟨k, hk, hmin, -⟩ := lowestKey_cases s
    · exact .inl ⟨_, exec_ldVxK_rewinds x hnone⟩
    · exact .inl ⟨_, exec_ldVxK_loads x hk hmin⟩
  | _ => exact .inl ⟨_, rfl⟩

theorem exec_fault_iff : exec i s = .fault f ↔ Failure s i f := by
  refine ⟨fun h => ?_, exec_fault_of_failure⟩
  obtain ⟨t, ht⟩ | ⟨g, hg⟩ := exec_next_or_failure i s
  · rw [ht] at h
    cases h
  · rw [exec_fault_of_failure hg] at h
    cases h
    exact hg

theorem exec_ne_refused (i : Instr) (s : State) (r : Refusal) : exec i s ≠ .refused r := by
  intro h
  obtain ⟨t, ht⟩ | ⟨g, hg⟩ := exec_next_or_failure i s
  · rw [ht] at h
    cases h
  · rw [exec_fault_of_failure hg] at h
    cases h

/-- Settles O8: the statement lists the constructors of `Failure`. -/
theorem execFaultsExactly : Obligations.ExecFaultsExactly := by
  refine fun i s => ⟨exec_ne_refused i s, fun f => exec_fault_iff.trans ⟨fun h => ?_, fun h => ?_⟩⟩
  · cases h with
    | ret hs => exact .inl ⟨rfl, hs, rfl⟩
    | call nnn hs => exact .inr (.inl ⟨⟨nnn, rfl⟩, hs, rfl⟩)
    | drw x y n hn hr => exact .inr (.inr ⟨rfl, .inl ⟨x, y, n, rfl, hn, hr⟩⟩)
    | ldB x hr => exact .inr (.inr ⟨rfl, .inr (.inl ⟨⟨x, rfl⟩, hr⟩)⟩)
    | ldMemVx x hr => exact .inr (.inr ⟨rfl, .inr (.inr ⟨x, .inl rfl, hr⟩)⟩)
    | ldVxMem x hr => exact .inr (.inr ⟨rfl, .inr (.inr ⟨x, .inr rfl, hr⟩)⟩)
  · obtain ⟨rfl, hs, rfl⟩ | ⟨⟨nnn, rfl⟩, hs, rfl⟩ |
      ⟨rfl, ⟨x, y, n, rfl, hn, hr⟩ | ⟨⟨x, rfl⟩, hr⟩ | ⟨x, rfl | rfl, hr⟩⟩ := h
    · exact .ret hs
    · exact .call nnn hs
    · exact .drw x y n hn hr
    · exact .ldB x hr
    · exact .ldMemVx x hr
    · exact .ldVxMem x hr

/-! A step: the instruction it runs, and the state its error leaves. -/

/-- Settles O6: the statement's word is the one the fetch reads. -/
theorem stepRunsDecodedInstruction : Obligations.StepRunsDecodedInstruction := by
  intro s i hp hd
  rw [ofNat_bytes] at hd
  exact step_eq_exec hp hd

theorem afterError_of_fetch_error (h : 4095 ≤ s.pc.toNat) : s.afterError = s := by
  rw [State.afterError, if_pos h]

theorem afterError_of_fetched (h : s.pc.toNat ≤ 4094) : s.afterError = s.setPc (s.pc + 2) := by
  rw [State.afterError, if_neg (by omega)]

theorem unchanged_afterError (s : State) : Unchanged [] [.pc] s s.afterError := by
  obtain hp | hp : s.pc.toNat ≤ 4094 ∨ 4095 ≤ s.pc.toNat := by omega
  · rw [afterError_of_fetched hp]
    exact unchanged_setPc s _
  · rw [afterError_of_fetch_error hp]
    exact unchanged_setPc s s.pc

theorem perform_step_fault (h : step s = .fault f) : perform .step s = (s.afterError, .code (some f)) := by
  simp only [perform, h]

/-- Settles O9: the step command leaves `afterError`, whose two cases are those of the statement. -/
theorem stateAfterErrorOfStep : Obligations.StateAfterErrorOfStep := by
  intro s f h
  rw [perform_step_fault h]
  refine ⟨rfl, unchanged_afterError s, fun hp => ?_, fun hp => ?_⟩
  · rw [afterError_of_fetch_error hp]
  · rw [afterError_of_fetched hp, setPc_pc, toNat_pc_add_two hp]

end Sys2Proof.Machine
end

section
/-! PROOFS. The port of the host (60_exceptions.md R215 to R225): the timers' tick, the keys, the pixels and the loading of a
program. -/

namespace Sys2Proof.Machine

open Claims

variable {s : State}

/-! Timers. -/

theorem toNat_countDown (b : Byte) : (countDown b).toNat = b.toNat - 1 := by
  unfold countDown
  split
  · next hb => subst hb; rfl
  · next hb => bv_omega

theorem unchanged_tick (s : State) : Unchanged [] [.delay, .sound] s (tick s) := by simp [Unchanged, tick]

theorem tone_iff (s : State) : tone s = true ↔ s.st.toNat > 0 := decide_eq_true_iff

/-- Settles O43. -/
theorem tickCountsDown : Obligations.TickCountsDown :=
  fun s => ⟨toNat_countDown s.dt, toNat_countDown s.st, unchanged_tick s, tone_iff s, rfl⟩

/-! Keys. -/

theorem get_setKey (s : State) (k j : Fin 16) (b : Bool) : (s.setKey k b).key.get j = if j = k then b else s.key.get j := by
  simp only [setKey_key, Vector.get_eq_getElem, Vector.getElem_set, Fin.ext_iff, eq_comm]

theorem get_setKey_same (s : State) (k : Fin 16) (b : Bool) : (s.setKey k b).key.get k = b := by
  rw [get_setKey, if_pos rfl]

theorem get_setKey_other (s : State) {k j : Fin 16} (h : j ≠ k) (b : Bool) : (s.setKey k b).key.get j = s.key.get j := by
  rw [get_setKey, if_neg h]

theorem unchanged_setKey (s : State) (k : Fin 16) (b : Bool) : Unchanged [] [.keys] s (s.setKey k b) := by simp [Unchanged]

theorem setKey_setKey (s : State) (k : Fin 16) (b c : Bool) : (s.setKey k b).setKey k c = s.setKey k c := by
  simp [State.setKey]

/-- Settles O45: both operations are `setKey`. -/
theorem keyPressAndRelease : Obligations.KeyPressAndRelease :=
  fun k s => ⟨get_setKey_same s k true, get_setKey_same s k false,
    fun _ hj => ⟨get_setKey_other s hj true, get_setKey_other s hj false⟩,
    unchanged_setKey s k true, unchanged_setKey s k false, setKey_setKey s k true true, setKey_setKey s k false false⟩

/-! Pixels. -/

theorem pixelIndex_val (x : Fin 64) (y : Fin 32) : (pixelIndex x y).val = y.val * 64 + x.val := rfl

/-- Column and row are the remainder and the quotient of the index by 64. -/
theorem pixelIndex_eq_iff {x : Fin 64} {y : Fin 32} {p : Fin 2048} :
    pixelIndex x y = p ↔ x.val = p.val % 64 ∧ y.val = p.val / 64 := by
  rw [Fin.ext_iff, pixelIndex_val]
  omega

theorem existsUnique_pixelIndex (p : Fin 2048) :
    ∃ x y, pixelIndex x y = p ∧ ∀ x' y', pixelIndex x' y' = p → x' = x ∧ y' = y := by
  refine ⟨⟨p.val % 64, by omega⟩, ⟨p.val / 64, by omega⟩, pixelIndex_eq_iff.2 ⟨rfl, rfl⟩, fun x' y' h => ?_⟩
  obtain ⟨hx, hy⟩ := pixelIndex_eq_iff.1 h
  exact ⟨Fin.ext hx, Fin.ext hy⟩

theorem readPixel_pixelIndex (s : State) (x : Fin 64) (y : Fin 32) : readPixel s (pixelIndex x y) = pixelAt s.disp x y := by
  obtain ⟨hx, hy⟩ := pixelIndex_eq_iff.1 (rfl : pixelIndex x y = pixelIndex x y)
  exact congrArg₂ (pixelAt s.disp) (Fin.ext hx.symm) (Fin.ext hy.symm)

/-- Settles O46. -/
theorem pixelPort : Obligations.PixelPort :=
  ⟨pixelIndex_val, existsUnique_pixelIndex, fun s x y => by rw [perform, readPixel_pixelIndex]⟩

/-! Loading a program. -/

theorem romFits_iff (bytes : List Byte) : romFits bytes = true ↔ bytes.length ≤ 3584 := decide_eq_true_iff

theorem perform_loadRom_ok {bytes : List Byte} (h : bytes.length ≤ 3584) (s : State) :
    perform (.loadRom bytes) s = (s.setBytes 0x200 bytes, .code none) := by
  simp only [perform, loadRom, (romFits_iff bytes).2 h, if_true]

theorem perform_loadRom_tooLarge {bytes : List Byte} (h : 3584 < bytes.length) (s : State) :
    perform (.loadRom bytes) s = (s, .code (some .romTooLarge)) := by
  have hno : ¬romFits bytes = true := by rw [romFits_iff]; omega
  simp only [perform, loadRom, if_neg hno]

/-- Settles O47: a program that fits ends at 4095 or below, so the rules of `setBytes` apply. -/
theorem loadRomWritesProgram : Obligations.LoadRomWritesProgram := by
  refine fun bytes s => ⟨fun h => perform_loadRom_tooLarge h s, fun h => ?_⟩
  rw [perform_loadRom_ok h]
  exact ⟨rfl, unchanged_setBytes s _ _, onlyBytes_setBytes s _ _, fun hs _ hj => byte_setBytes_add hs (by omega) hj⟩

end Sys2Proof.Machine
end

section
/-! PROOFS. Reset and the hazards (70_reset_and_hazards.md R240 to R250): what `Reset` leaves, the first step after it, the
jump to itself that ends a run, and the timers over several ticks. -/

namespace Sys2Proof.Machine

open Claims

variable {s : State}

/-! Ticks. -/

theorem toNat_timers_ticks (n : Nat) (s : State) :
    (ticks n s).dt.toNat = s.dt.toNat - n ∧ (ticks n s).st.toNat = s.st.toNat - n := by
  induction n generalizing s with
  | zero => exact ⟨rfl, rfl⟩
  | succ n ih =>
    obtain ⟨hdt, hst, -⟩ := tickCountsDown s
    obtain ⟨hdts, hsts⟩ := ih (tick s)
    rw [ticks]
    omega

/-- Ticks write the timers only. -/
theorem ticks_eq_setDt_setSt (n : Nat) (s : State) : ticks n s = (s.setDt (ticks n s).dt).setSt (ticks n s).st := by
  induction n generalizing s with
  | zero => rfl
  | succ n ih => exact ih (tick s)

theorem unchanged_ticks (n : Nat) (s : State) : Unchanged [] [.delay, .sound] s (ticks n s) := by
  rw [ticks_eq_setDt_setSt]
  simp [Unchanged]

/-- Settles O44, by induction on the number of ticks; DT is 0 when the floored difference is. -/
theorem ticksReachZeroAndStay : Obligations.TicksReachZeroAndStay := by
  intro n s
  obtain ⟨hdt, hst⟩ := toNat_timers_ticks n s
  refine ⟨hdt, hst, unchanged_ticks n s, ?_⟩
  rw [BitVec.toNat_eq, hdt]
  exact Nat.sub_eq_zero_iff_le

/-! Reset, and the first step after it. -/

/-- Settles O50: the command performs `hostReset`, which is the state the statement writes out. -/
theorem hostResetForgetsEverything : Obligations.HostResetForgetsEverything :=
  fun _ => ⟨rfl, rfl⟩

theorem memWf_hostReset (s : State) : (hostReset s).memWf := memWf_resetWith s.config

/-- After reset memory is zero from the end of the font on. -/
theorem byte_resetWith_of_lt (cfg : Config) {a : Nat} (ha : 0x09F < a) : (State.resetWith cfg).byte a = 0 :=
  dif_neg fun hfont => absurd hfont.2 (Nat.not_le.2 ha)

theorem toNat_resetWith_pc (cfg : Config) : (State.resetWith cfg).pc.toNat = 0x200 := rfl

theorem wordAt_resetWith_pc (cfg : Config) : (State.resetWith cfg).wordAt (State.resetWith cfg).pc.toNat = 0x0000 := by
  rw [toNat_resetWith_pc, State.wordAt, byte_resetWith_of_lt cfg (by omega), byte_resetWith_of_lt cfg (by omega)]
  rfl

theorem decodeWord_zero : decodeWord 0x0000 = .error (.unknown 0x0000) := by decide

/-- Settles O51: the first fetch reads two zero bytes, a word that is no instruction. -/
theorem firstStepWithoutRom : Obligations.FirstStepWithoutRom := by
  intro cfg
  have hpc : (State.resetWith cfg).pc.toNat ≤ 4094 := by rw [toNat_resetWith_pc]; omega
  have hword := wordAt_resetWith_pc cfg
  rw [step_decode_error hpc (by rw [hword, decodeWord_zero]), hword]

/-- The state `Reset` and then `LoadRom` leave, for a ROM that fits. -/
def State.booted (s : State) (rom : List Byte) : State :=
  (hostReset s).setBytes 0x200 rom

theorem performAll_boot {rom : List Byte} (h : rom.length ≤ 3584) (s : State) :
    (performAll [.reset, .loadRom rom] s).1 = s.booted rom := by
  simp only [performAll, perform_loadRom_ok h]
  rfl

theorem booted_pc (s : State) (rom : List Byte) : (s.booted rom).pc = 0x0200 := setBytes_pc (hostReset s) rom 0x200

theorem wordAt_booted {b0 b1 : Byte} {rest : List Byte} (h : rest.length + 2 ≤ 3584) (s : State) :
    (s.booted (b0 :: b1 :: rest)).wordAt 0x200 = wordOfBytes b0 b1 := by
  have hfits : 0x200 + (b0 :: b1 :: rest).length ≤ 4096 := by simp only [List.length_cons]; omega
  have h0 := byte_setBytes_add (memWf_hostReset s) (k := 0) hfits (by simp)
  have h1 := byte_setBytes_add (memWf_hostReset s) (k := 1) hfits (by simp)
  exact congrArg₂ wordOfBytes h0 h1

/-- Settles O52: the booted state stands at 0x200 with the ROM's first word there. -/
theorem bootRunsFirstRomWord : Obligations.BootRunsFirstRomWord := by
  intro s b0 b1 rest i hlen hd
  have hpc := booted_pc s (b0 :: b1 :: rest)
  have hword := wordAt_booted (b0 := b0) (b1 := b1) hlen s
  refine ⟨s.booted (b0 :: b1 :: rest), performAll_boot (rom := b0 :: b1 :: rest) hlen s, hpc, ?_⟩
  rw [ofNat_bytes, ← hword] at hd
  calc step (s.booted (b0 :: b1 :: rest))
      = exec i ((s.booted (b0 :: b1 :: rest)).setPc ((s.booted (b0 :: b1 :: rest)).pc + 2)) :=
        step_eq_exec (by rw [hpc]; decide) (by rw [hpc]; exact hd)
    _ = exec i ((s.booted (b0 :: b1 :: rest)).setPc 0x0202) := by rw [hpc]; rfl

/-! The jump to itself. -/

theorem ended_iff : ended s = true ↔ s.pc.toNat ≤ 4094 ∧ s.wordAt s.pc.toNat = encode (.jp (s.pc.extractLsb' 0 12)) := by
  simp only [ended, Bool.and_eq_true, decide_eq_true_eq, beq_iff_eq, encode, formatA]

/-- An address below 4096 is its low twelve bits. -/
theorem zext16_extractLsb'_of_lt {a : Word} (h : a.toNat < 4096) : zext16 (a.extractLsb' 0 12) = a := by
  apply BitVec.eq_of_toNat_eq
  rw [toNat_zext16, BitVec.extractLsb'_toNat, Nat.shiftRight_zero, Nat.mod_eq_of_lt h]

/-- Settles O53: the fetch moves `PC`, the jump puts it back, and neither touches anything else. -/
theorem endedStateIsFixed : Obligations.EndedStateIsFixed := by
  intro s h
  obtain ⟨hp, hword⟩ := ended_iff.1 h
  have hd : decodeWord (s.wordAt s.pc.toNat) = .ok (.jp (s.pc.extractLsb' 0 12)) := by rw [hword, decodeWord_encode]
  calc step s = exec (.jp (s.pc.extractLsb' 0 12)) (s.setPc (s.pc + 2)) := step_eq_exec hp hd
    _ = .next (s.setPc (zext16 (s.pc.extractLsb' 0 12))) := rfl
    _ = .next (s.setPc s.pc) := by rw [zext16_extractLsb'_of_lt (by omega)]

end Sys2Proof.Machine
end
